-- ==== Sys2Proof/Word.lean ====
section
/-! DEFINITION. The one value type of CORE: a signed 64-bit integer (00_scope.md R6, R10). It is a bounded integer and
not a bit vector, because no instruction operates on bits (R6) and a cell has no byte layout (20_memory.md R40). -/

namespace Sys2Proof

/-- `MINI = -2^63` (R10). -/
abbrev minI : Int := -9223372036854775808

/-- `MAXI = 2^63 - 1` (R10). -/
abbrev maxI : Int := 9223372036854775807

/-- `fits(v)` of R10: the exact integer `v` is a value of I64. -/
abbrev Fits (v : Int) : Prop := minI ≤ v ∧ v ≤ maxI

/-- A signed 64-bit integer (R6): an integer together with the proof that it fits. Memory cells, operand values, input
and output values, `pc` and `rb` are all of this type. -/
@[ext] structure I64 where
  val : Int
  lo : minI ≤ val
  hi : val ≤ maxI
deriving DecidableEq, Repr

/-- The value 0, which every cell outside the loaded program holds until it is written (R33). -/
def I64.zero : I64 := ⟨0, by decide, by decide⟩

/-- The value 1, the true result of LT and EQ (R97, R98). -/
def I64.one : I64 := ⟨1, by decide, by decide⟩

@[simp] theorem I64.zero_val : I64.zero.val = 0 := rfl

@[simp] theorem I64.one_val : I64.one.val = 1 := rfl

/-- The range of R6 with its two bounds written as numerals. -/
theorem I64.bounds (x : I64) : -9223372036854775808 ≤ x.val ∧ x.val ≤ 9223372036854775807 := ⟨x.lo, x.hi⟩

/-- A value of I64 fits. -/
theorem I64.fits (x : I64) : Fits x.val := ⟨x.lo, x.hi⟩

end Sys2Proof
end

