-- ==== Sys2Proof/Machine/Codes.lean ====
section
/-! DEFINITION. The closed vocabularies of the spec that more than one file uses: addressing modes (30_encoding.md R54),
parameter kinds (R56) and fault codes with their cause and detail numbers (60_exceptions.md R126). -/

namespace Sys2Proof

/-- The three addressing modes: "0 = position, 1 = immediate, 2 = relative" (R54, R65 to R67). -/
inductive Mode where
  | position
  | immediate
  | relative
deriving DecidableEq, Repr

/-- The kind of a parameter: read, or write-target (R56). -/
inductive ParamKind where
  | read
  | write
deriving DecidableEq, Repr

/-- The eleven rows of the fault table R126, one constructor per (cause, detail) pair. -/
inductive FaultCode where
  /-- MalformedProgram, NEG_WORD: the instruction word is negative (R52). -/
  | negWord
  /-- MalformedProgram, BAD_OPCODE: `w mod 100` is not one of 1 to 9 and 99 (R59). -/
  | badOpcode
  /-- MalformedProgram, RESERVED_DIGIT: a digit that must be 0 is not (R61). -/
  | reservedDigit
  /-- MalformedProgram, BAD_MODE: a used mode digit is 3 to 9 (R60). -/
  | badMode
  /-- MalformedProgram, WRITE_IMMEDIATE: a write-target has mode 1 (R62). -/
  | writeImmediate
  /-- InvalidAddress, PC_NEG: `pc` is negative at the fetch (R74). -/
  | pcNeg
  /-- InvalidAddress, EA_NEG: an effective address is negative (R65, R67). -/
  | eaNeg
  /-- ArithmeticOverflow, PC_OVF: `pc + i` or `pc + 1 + n` exceeds `2^63 - 1` (R64, R77). -/
  | pcOvf
  /-- ArithmeticOverflow, EA_OVF: `rb + raw` exceeds `2^63 - 1` (R67). -/
  | eaOvf
  /-- ArithmeticOverflow, ALU_OVF: the result of ADD, MUL or ARB is outside I64 (R88, R101). -/
  | aluOvf
  /-- OutOfMemory, WRITE_BEYOND_CAPACITY: a write-target address is at or beyond `MEM_CAPACITY` (R69, R130). -/
  | writeBeyondCapacity
deriving DecidableEq, Repr

/-- The `cause` column of R126: 1 MalformedProgram, 2 InvalidAddress, 3 ArithmeticOverflow, 4 OutOfMemory. -/
def FaultCode.cause : FaultCode → Nat
  | .negWord | .badOpcode | .reservedDigit | .badMode | .writeImmediate => 1
  | .pcNeg | .eaNeg => 2
  | .pcOvf | .eaOvf | .aluOvf => 3
  | .writeBeyondCapacity => 4

/-- The `detail` column of R126. -/
def FaultCode.detail : FaultCode → Nat
  | .negWord => 1
  | .badOpcode => 2
  | .reservedDigit => 3
  | .badMode => 4
  | .writeImmediate => 5
  | .pcNeg => 1
  | .eaNeg => 2
  | .pcOvf => 1
  | .eaOvf => 2
  | .aluOvf => 3
  | .writeBeyondCapacity => 1

/-- The mode digit of a mode (R54). -/
def Mode.digit : Mode → Nat
  | .position => 0
  | .immediate => 1
  | .relative => 2

end Sys2Proof
end

