-- ==== Sys2Proof/Syntax.lean ====
section
/-! DEFINITION. The ten instructions (00_scope.md R2, 30_encoding.md R56), as `Decode` yields them from the instruction
word alone (R63): the opcode and the mode of each parameter. The raw operands are no part of the decoded instruction: the
resolver reads them from the parameter cells `Mem[pc + i]` while the instruction executes (R64, R70), and a fault of
parameter 1 comes before parameter 2's cell is looked at (60_exceptions.md R134). -/

namespace Sys2Proof

/-- One constructor per row of the opcode table; the arguments are the modes of parameters 1, 2, 3 in order. -/
inductive Instr where
  /-- Opcode 1, `c := a + b` (R85). -/
  | add (m1 m2 m3 : Mode)
  /-- Opcode 2, `c := a * b` (R86). -/
  | mul (m1 m2 m3 : Mode)
  /-- Opcode 3, IN: pop the oldest input value into the target of parameter 1, or yield NeedInput (R89). -/
  | inp (m1 : Mode)
  /-- Opcode 4, OUT: yield `Output(a)` (R90). -/
  | out (m1 : Mode)
  /-- Opcode 5, JNZ: jump to `b` when `a` is not 0 (R93). -/
  | jnz (m1 m2 : Mode)
  /-- Opcode 6, JZ: jump to `b` when `a` is 0 (R94). -/
  | jz (m1 m2 : Mode)
  /-- Opcode 7, LT: `c := 1 if a < b else 0` (R97). -/
  | lt (m1 m2 m3 : Mode)
  /-- Opcode 8, EQ: `c := 1 if a == b else 0` (R98). -/
  | eq (m1 m2 m3 : Mode)
  /-- Opcode 9, ARB: `rb <- rb + a` (R101). -/
  | arb (m1 : Mode)
  /-- Opcode 99, HALT (R103). -/
  | halt
deriving DecidableEq, Repr

end Sys2Proof
end

