-- ==== Sys2Proof/WellFormed.lean ====
section
/-! DEFINITION. Which terms of `Instr` are instructions: a write-target never has mode Immediate (30_encoding.md R62).
Every other combination of opcode and modes is one of the 99 legal instruction words (R58). -/

namespace Sys2Proof

/-- The check of R62 on one write-target's mode. -/
def Mode.writable (m : Mode) : Bool := m ≠ .immediate

/-- The well-formed instructions: the mode of `m3` of ADD, MUL, LT, EQ and of `m1` of IN is not Immediate (R62). -/
def Instr.wf : Instr → Bool
  | .add _ _ m3 => m3.writable
  | .mul _ _ m3 => m3.writable
  | .inp m1 => m1.writable
  | .out _ => true
  | .jnz _ _ => true
  | .jz _ _ => true
  | .lt _ _ m3 => m3.writable
  | .eq _ _ m3 => m3.writable
  | .arb _ => true
  | .halt => true

end Sys2Proof
end

