-- ==== Sys2Proof/Decode.lean ====
section
/-! DEFINITION. The decoder, the encoder and the host's table interface (30_encoding.md). The encoding is decimal: the two
lowest digits of the instruction word are the opcode, the next three the modes of parameters 1, 2, 3 (R51). -/

namespace Sys2Proof

/-- The opcode of each instruction (R2, R56). -/
def Instr.opcode : Instr → Nat
  | .add _ _ _ => 1
  | .mul _ _ _ => 2
  | .inp _ => 3
  | .out _ => 4
  | .jnz _ _ => 5
  | .jz _ _ => 6
  | .lt _ _ _ => 7
  | .eq _ _ _ => 8
  | .arb _ => 9
  | .halt => 99

/-- The modes of the parameters, in order 1, 2, 3 (R54). -/
def Instr.modes : Instr → List Mode
  | .add m1 m2 m3 => [m1, m2, m3]
  | .mul m1 m2 m3 => [m1, m2, m3]
  | .inp m1 => [m1]
  | .out m1 => [m1]
  | .jnz m1 m2 => [m1, m2]
  | .jz m1 m2 => [m1, m2]
  | .lt m1 m2 m3 => [m1, m2, m3]
  | .eq m1 m2 m3 => [m1, m2, m3]
  | .arb m1 => [m1]
  | .halt => []

/-- The kinds of the parameters, in order 1, 2, 3: the signature table of R56. -/
def Instr.kinds : Instr → List ParamKind
  | .add _ _ _ => [.read, .read, .write]
  | .mul _ _ _ => [.read, .read, .write]
  | .inp _ => [.write]
  | .out _ => [.read]
  | .jnz _ _ => [.read, .read]
  | .jz _ _ => [.read, .read]
  | .lt _ _ _ => [.read, .read, .write]
  | .eq _ _ _ => [.read, .read, .write]
  | .arb _ => [.read]
  | .halt => []

/-- `n`, the number of parameters; the length of the instruction in cells is `1 + n` (R56, R57). -/
def Instr.numParams (i : Instr) : Nat := i.kinds.length

/-- `digit_j(w)` of R11, for `w >= 0`. -/
def digit (j w : Nat) : Nat := (w / 10 ^ j) % 10

/-- The mode of a read parameter; a digit 3 to 9 is BAD_MODE (R60). -/
def readMode (d : Nat) : Except FaultCode Mode :=
  if d = 0 then .ok .position
  else if d = 1 then .ok .immediate
  else if d = 2 then .ok .relative
  else .error .badMode

/-- The mode of a write-target: BAD_MODE is checked before WRITE_IMMEDIATE (R60, R62, R63). -/
def writeMode (d : Nat) : Except FaultCode Mode :=
  if d = 0 then .ok .position
  else if d = 1 then .error .writeImmediate
  else if d = 2 then .ok .relative
  else .error .badMode

/-- Go on with the mode a digit stands for, or report the first fault (R63). -/
def withMode (r : Except FaultCode Mode) (k : Mode → Except FaultCode Instr) : Except FaultCode Instr :=
  match r with
  | .ok m => k m
  | .error f => .error f

/-- Decode of ADD, MUL, LT and EQ, whose signature is R, R, W (R56): the digits of weight `10^5` and above are reserved. -/
def decodeReadReadWrite (w : Nat) (mk : Mode → Mode → Mode → Instr) : Except FaultCode Instr :=
  if w / 100000 ≠ 0 then .error .reservedDigit
  else withMode (readMode (digit 2 w)) fun m1 => withMode (readMode (digit 3 w)) fun m2 =>
    withMode (writeMode (digit 4 w)) fun m3 => .ok (mk m1 m2 m3)

/-- Decode of JNZ and JZ, whose signature is R, R (R56): `m3` and the higher digits are reserved (R61). -/
def decodeReadRead (w : Nat) (mk : Mode → Mode → Instr) : Except FaultCode Instr :=
  if w / 100000 ≠ 0 ∨ digit 4 w ≠ 0 then .error .reservedDigit
  else withMode (readMode (digit 2 w)) fun m1 => withMode (readMode (digit 3 w)) fun m2 => .ok (mk m1 m2)

/-- Decode of IN, OUT and ARB, which have one parameter (R56): `m2`, `m3` and the higher digits are reserved (R61). -/
def decodeOne (toMode : Nat → Except FaultCode Mode) (w : Nat) (mk : Mode → Instr) : Except FaultCode Instr :=
  if w / 100000 ≠ 0 ∨ digit 3 w ≠ 0 ∨ digit 4 w ≠ 0 then .error .reservedDigit
  else withMode (toMode (digit 2 w)) fun m1 => .ok (mk m1)

/-- Decode of HALT, which has no parameters (R56): every digit above the opcode is reserved (R61). -/
def decodeHalt (w : Nat) : Except FaultCode Instr :=
  if w / 100000 ≠ 0 ∨ digit 2 w ≠ 0 ∨ digit 3 w ≠ 0 ∨ digit 4 w ≠ 0 then .error .reservedDigit else .ok .halt

/-- `Decode` of R63 on a non-negative word: the opcode (R53), then the reserved digits, then the used mode digits. -/
def decodeNat (w : Nat) : Except FaultCode Instr :=
  if w % 100 = 1 then decodeReadReadWrite w Instr.add
  else if w % 100 = 2 then decodeReadReadWrite w Instr.mul
  else if w % 100 = 3 then decodeOne writeMode w Instr.inp
  else if w % 100 = 4 then decodeOne readMode w Instr.out
  else if w % 100 = 5 then decodeReadRead w Instr.jnz
  else if w % 100 = 6 then decodeReadRead w Instr.jz
  else if w % 100 = 7 then decodeReadReadWrite w Instr.lt
  else if w % 100 = 8 then decodeReadReadWrite w Instr.eq
  else if w % 100 = 9 then decodeOne readMode w Instr.arb
  else if w % 100 = 99 then decodeHalt w
  else .error .badOpcode

/-- `Decode(w)` of R63, total on every cell value: a negative word is NEG_WORD before any digit is taken (R52). -/
def decode (w : I64) : Except FaultCode Instr :=
  if w.val < 0 then .error .negWord else decodeNat w.val.toNat

/-- The mode digits of an instruction as one decimal number, parameter 1 in the units place. -/
def modesValue : List Mode → Nat
  | [] => 0
  | m :: ms => m.digit + 10 * modesValue ms

/-- The instruction word `op + 100*m1 + 1000*m2 + 10000*m3` (R51, R72) as a natural number. -/
def Instr.wordNat (i : Instr) : Nat := i.opcode + 100 * modesValue i.modes

/-- An instruction word has at most five decimal digits (R51). -/
theorem Instr.wordNat_le (i : Instr) : i.wordNat ≤ 99999 := by
  have hd : ∀ m : Mode, m.digit ≤ 2 := fun m => by cases m <;> decide
  cases i with
  | add m1 m2 m3 | mul m1 m2 m3 | lt m1 m2 m3 | eq m1 m2 m3 =>
    have := hd m1; have := hd m2; have := hd m3
    simp only [Instr.wordNat, Instr.opcode, Instr.modes, modesValue]; omega
  | jnz m1 m2 | jz m1 m2 =>
    have := hd m1; have := hd m2
    simp only [Instr.wordNat, Instr.opcode, Instr.modes, modesValue]; omega
  | inp m1 | out m1 | arb m1 =>
    have := hd m1
    simp only [Instr.wordNat, Instr.opcode, Instr.modes, modesValue]; omega
  | halt => decide

/-- The encoder: the instruction word of an instruction (R51, R56). The parameter cells that follow it hold the raw
operands, which are data and no part of the encoding (R49). -/
def encode (i : Instr) : I64 :=
  ⟨i.wordNat, by have := i.wordNat_le; simp only [minI]; omega, by have := i.wordNat_le; simp only [maxI]; omega⟩

/-- The cells of one instruction: its word followed by the raw operands of its parameters (R50, R72). -/
def assemble (i : Instr) (raws : List I64) : List I64 := encode i :: raws

/-- The cell whose 64 bits, read in two's complement, are the low 64 bits of `n`. The spec gives a cell no bit
representation (00_scope.md R6): this is the host's numbering of table bits only (notes/assumptions/8.md). -/
def cellOfBits (n : Nat) : I64 :=
  if h : n % 18446744073709551616 < 9223372036854775808 then
    ⟨(n % 18446744073709551616 : Nat), by simp only [minI]; omega, by simp only [maxI]; omega⟩
  else
    ⟨(n % 18446744073709551616 : Nat) - 18446744073709551616, by simp only [minI]; omega, by simp only [maxI]; omega⟩

/-- The four cells (the longest instruction, R49) whose bits are `w`: cell `k` holds bits `64 k + 63` to `64 k`. -/
def cellsOfBits (w : Nat) : List I64 :=
  [cellOfBits w, cellOfBits (w / 18446744073709551616), cellOfBits (w / 18446744073709551616 ^ 2),
   cellOfBits (w / 18446744073709551616 ^ 3)]

/-- The host's question: what the decoder reads from an instruction whose bits are `w`. The first cell alone decides
(R63 reads no state other than the word), and the bits of `w` above `nbits` are 0 by the host's convention. -/
def decodeTableWord (_nbits w : Nat) : Option Instr :=
  match decode (cellOfBits w) with
  | .ok i => some i
  | .error _ => none

end Sys2Proof
end

