-- ==== Sys2Proof/Config.lean ====
section
/-! DEFINITION. The two implementation parameters of CORE (00_scope.md R7 to R9). They are open parameters a model takes
as arguments; this model carries them in the state, where no step changes them, so that a statement about every state
holds for every value of them (notes/assumptions/2.md). CORE has no undefined value, so there is no free value here. -/

namespace Sys2Proof

/-- The constants of one CORE (10_state.md R29). -/
structure Config where
  /-- `MEM_CAPACITY`: the number of cells the memory arbiter can back (R7). -/
  memCapacity : Nat
  /-- `FIFO_CAPACITY`: the number of values the input FIFO can hold, `none` for `unbounded` (R8). -/
  fifoCapacity : Option Nat
deriving DecidableEq, Repr

/-- The values this spec uses in every test vector: `MEM_CAPACITY = 2^63` and `FIFO_CAPACITY = unbounded` (R7, R8). -/
def Config.default : Config := { memCapacity := 9223372036854775808, fifoCapacity := none }

/-- The legal parameter values: `1 <= MEM_CAPACITY <= 2^63` (R7) and `FIFO_CAPACITY >= 1` or unbounded (R8). -/
abbrev Config.wf (c : Config) : Prop :=
  1 ≤ c.memCapacity ∧ c.memCapacity ≤ 9223372036854775808 ∧ c.fifoCapacity ≠ some 0

end Sys2Proof
end

