-- ==== Sys2Proof/Machine/State.lean ====
section
/-! DEFINITION. The state of one CORE (10_state.md R15) as plain data, with the host's side of the transactions
(47_run_control_and_io_channel.md) beside it, and the state after reset (R30). -/

namespace Sys2Proof.Machine

/-- The cell memory (R19, R33): the cells that do not hold 0, as (address, value) pairs with strictly rising addresses.
An unlisted cell holds 0 (R33, R37). A cell is one indivisible integer and has no bytes (R40). -/
abbrev Memory := List (Nat × I64)

/-- A fault record `{cause, detail, fpc}` (R24, R131); `code` stands for the pair (cause, detail) of R126. -/
structure FaultRecord where
  code : FaultCode
  /-- The value `pc` had when the faulting instruction started. -/
  fpc : I64
deriving DecidableEq, Repr

/-- The `cause` field of a fault record (R24, R126). -/
def FaultRecord.cause (r : FaultRecord) : Nat := r.code.cause

/-- The `detail` field of a fault record (R24, R126). -/
def FaultRecord.detail (r : FaultRecord) : Nat := r.code.detail

/-- The transactions a host can perform on a CORE (R122). -/
inductive Transaction where
  /-- HostLoad(P) (R105). -/
  | load (program : List I64)
  /-- HostInput(v) (R108). -/
  | input (v : I64)
  /-- HostInputMany(V) (R110). -/
  | inputMany (vs : List I64)
  /-- HostInputAscii(T), the text as its characters (R111). -/
  | inputAscii (text : List Char)
  /-- HostRun() (R113). -/
  | run
deriving DecidableEq, Repr

/-- Everything a host can observe of a CORE (R123): the results of its HostRuns, fault indications and refusals. -/
inductive Answer where
  /-- `Output(v)` (R116). -/
  | output (v : I64)
  /-- `NeedInput` (R117). -/
  | needInput
  /-- `Halted` (R118, R114). -/
  | halted
  /-- The fault indication `Fault(f)` (R115). -/
  | fault (f : FaultRecord)
  /-- The transaction was refused (R107, R109, R112, R115). -/
  | refused
deriving DecidableEq, Repr

/-- The state of one CORE. The fields `cfg` (parameters, R29), `running` (R25), `pending` and `results` (the host's side) are
the model's own; every other field is architectural (R15) or hidden (R21) state of the spec. -/
structure State where
  /-- `MEM_CAPACITY` and `FIFO_CAPACITY`; no step changes them (R7, R8, R29). -/
  cfg : Config
  /-- The cell memory (R19). -/
  mem : Memory
  /-- The hidden extent of the backing store (R21). -/
  extent : Nat
  /-- The program counter (R16). -/
  pc : I64
  /-- The relative-base register (R17). -/
  rb : I64
  /-- The input FIFO, oldest value first (R22). -/
  inq : List I64
  /-- The halted flag (R23). -/
  halted : Bool
  /-- The fault record, `none` while no fault is recorded (R24). -/
  fault : Option FaultRecord
  /-- A HostRun transaction is in progress (R25, R113). -/
  running : Bool
  /-- The transactions the host will perform next, first one first (R120, R124). -/
  pending : List Transaction
  /-- What the host has been answered so far, oldest first (R123). -/
  results : List Answer
deriving DecidableEq, Repr

/-- The reasons a step can stop the machine. There is none: every fault of CORE is a state, FAULTED, entered by a next
state (R131), and every phase has a step (R121), so this closed type is empty. That is safe: nothing is left out. -/
inductive Fault where
deriving DecidableEq, Repr

/-- The reasons the model can refuse an instruction. -/
inductive Refusal where
  /-- Raised by an arm of `exec` whose instruction has no meaning yet; no arm raises it, since every instruction has its
  meaning. Safe: a refused instruction proves nothing. -/
  | notModelled (mnemonic : String)
deriving DecidableEq, Repr

/-- The state after reset, which is HostLoad (R147): every field as R30 gives it, for the empty program, which the spec
accepts (R107). A program comes in by a later HostLoad; the host has no transaction pending and has no result yet. -/
def State.reset : State where
  cfg := Config.default
  mem := []
  extent := 0
  pc := I64.zero
  rb := I64.zero
  inq := []
  halted := false
  fault := none
  running := false
  pending := []
  results := []

end Sys2Proof.Machine
end

