-- ==== Sys2Proof/Machine/Ops.lean ====
section
/-! DEFINITION. The named operations over memory, registers, the input FIFO and the suspend/resume controller: reading and
writing a cell (20_memory.md), the phases (10_state.md R25), ending a HostRun with a result, taking a fault
(60_exceptions.md R131) and fetching an instruction (40_execution_cycle.md R74, R75). There is no return from a fault
(R136), so there is no operation for one. -/

namespace Sys2Proof.Machine

/-! ### The cell memory -/

/-- `MemRead` of R35 on a cell address: the value of the cell, 0 where none is listed. It has no side effect (R42). -/
def Memory.read : Memory → Nat → I64
  | [], _ => I64.zero
  | (k, v) :: m, a => if k = a then v else Memory.read m a

/-- Put the pair (a, v) at its place in a memory that lists no cell `a`. -/
def Memory.insert (a : Nat) (v : I64) : Memory → Memory
  | [] => [(a, v)]
  | (k, w) :: m => if a < k then (a, v) :: (k, w) :: m else (k, w) :: Memory.insert a v m

/-- `MemWrite` of R36 on a cell address below the capacity: cell `a` holds `v`, every other cell is unchanged. Writing 0
unlists the cell, so that equal memories are equal data. -/
def Memory.write (m : Memory) (a : Nat) (v : I64) : Memory :=
  if v = I64.zero then m.filter (fun e => e.1 ≠ a) else Memory.insert a v (m.filter (fun e => e.1 ≠ a))

/-- The canonical form: strictly rising addresses, no cell that holds 0, every address in `0 .. 2^63 - 1` (R19). -/
abbrev Memory.wf (m : Memory) : Prop :=
  m.Pairwise (fun x y => x.1 < y.1) ∧ ∀ e ∈ m, e.2 ≠ I64.zero ∧ e.1 < 9223372036854775808

/-- The memory whose cells from address `k` on are the given values and whose other cells hold 0. -/
def Memory.ofCells : Nat → List I64 → Memory
  | _, [] => []
  | k, v :: vs => if v = I64.zero then Memory.ofCells (k + 1) vs else (k, v) :: Memory.ofCells (k + 1) vs

/-- The memory after HostLoad of a program: cell `i` holds the `i`-th value, every other cell 0 (R33). -/
def Memory.ofProgram (program : List I64) : Memory := Memory.ofCells 0 program

/-! ### Registers and cells of a state -/

/-- Write `pc` (R16). -/
def State.setPc (s : State) (v : I64) : State := { s with pc := v }

/-- Write `rb` (R17). -/
def State.setRb (s : State) (v : I64) : State := { s with rb := v }

/-- Replace the contents of the input FIFO (R22). -/
def State.setInq (s : State) (q : List I64) : State := { s with inq := q }

/-- Set the halted flag (R23). -/
def State.setHalted (s : State) : State := { s with halted := true }

/-- Store a value in a cell below the capacity, growing the backing store where the cell is beyond it (R34, R36). -/
def State.storeCell (s : State) (a : Nat) (v : I64) : State :=
  { s with mem := s.mem.write a v, extent := max s.extent (a + 1) }

/-- `MemRead` of R35 for an integer address: a negative one fails, and the caller says with which InvalidAddress. -/
def State.load (s : State) (neg : FaultCode) (addr : Int) : Except FaultCode I64 :=
  if addr < 0 then .error neg else .ok (s.mem.read addr.toNat)

/-! ### The suspend/resume controller -/

/-- The four phases of the controller (R25). -/
inductive Phase where
  | suspended
  | running
  | halted
  | faulted
deriving DecidableEq, Repr

/-- The phase as R25 computes it from the state and from whether a HostRun is in progress. -/
def State.phase (s : State) : Phase :=
  if s.fault ≠ none then .faulted
  else if s.halted then .halted
  else if s.running then .running
  else .suspended

/-- Hand the host an answer; nothing of CORE changes (R123). -/
def State.reply (s : State) (r : Answer) : State := { s with results := s.results ++ [r] }

/-- End the HostRun in progress with a result: the engine yields (R80, R113). -/
def State.yieldResult (s : State) (r : Answer) : State :=
  { s with running := false, results := s.results ++ [r] }

/-- Fault entry (R131): the fault record keeps the code and the `pc` of the faulting instruction, the HostRun in progress
ends with the indication `Fault(f)`, and nothing else changes. -/
def State.takeFault (s : State) (c : FaultCode) : State :=
  { s with fault := some ⟨c, s.pc⟩, running := false, results := s.results ++ [.fault ⟨c, s.pc⟩] }

/-- One check of an instruction's stages (R73, R82): go on with the value it gives, or take the fault it raises, with no
other effect of the instruction. -/
def State.check {α : Type} (s : State) (r : Except FaultCode α) (k : α → Host.Outcome State Fault Refusal) :
    Host.Outcome State Fault Refusal :=
  match r with
  | .ok a => k a
  | .error c => .next (s.takeFault c)

/-! ### Fetch and decode -/

/-- Stages 1 and 2 of `Step` (R74, R75): read the word at `pc` from live memory and decode it. A negative `pc` is PC_NEG. -/
def State.fetchDecode (s : State) : Except FaultCode Instr :=
  match s.load .pcNeg s.pc.val with
  | .ok w => decode w
  | .error c => .error c

/-- Put cells one after another from address `a` on, up to the last address of the address space (R19). -/
def State.placeCells (s : State) (a : Nat) : List I64 → State
  | [] => s
  | v :: vs => if a < 9223372036854775808 then (s.storeCell a v).placeCells (a + 1) vs else s

/-- Put cells where the next fetch reads them, from `pc` on; a negative `pc` names no cell (R74). -/
def State.placeAtPc (s : State) (cells : List I64) : State :=
  if s.pc.val < 0 then s else s.placeCells s.pc.val.toNat cells

end Sys2Proof.Machine
end

