-- ==== Sys2Proof/Machine/Flags.lean ====
section
/-! DEFINITION. The values the instructions compute. CORE has no condition flags (10_state.md R26): what other machines put
into a carry or overflow flag is here a fault (41_arithmetic.md R88), and a comparison's result is a cell value (R99). -/

namespace Sys2Proof.Machine

/-- Hold an exact integer in 64 bits, or raise the given ArithmeticOverflow (R129). The value never wraps (R88). -/
def narrow (overflow : FaultCode) (v : Int) : Except FaultCode I64 :=
  if h : Fits v then .ok ⟨v, h.1, h.2⟩ else .error overflow

/-- `a + b` of ADD, checked (R85, R88). -/
def addValue (a b : I64) : Except FaultCode I64 := narrow .aluOvf (a.val + b.val)

/-- `a * b` of MUL, checked (R86, R88). -/
def mulValue (a b : I64) : Except FaultCode I64 := narrow .aluOvf (a.val * b.val)

/-- `1 if a < b else 0` of LT: the signed comparison, no difference is formed (R97). -/
def ltValue (a b : I64) : Except FaultCode I64 := .ok (if a.val < b.val then I64.one else I64.zero)

/-- `1 if a == b else 0` of EQ (R98). -/
def eqValue (a b : I64) : Except FaultCode I64 := .ok (if a.val = b.val then I64.one else I64.zero)

/-- `rb + a` of ARB, checked (R101). -/
def arbValue (rb a : I64) : Except FaultCode I64 := narrow .aluOvf (rb.val + a.val)

end Sys2Proof.Machine
end

