-- ==== Sys2Proof/Machine/Operands.lean ====
section
/-! DEFINITION. Parameter resolution (30_encoding.md R64 to R70) and the sequential next `pc` (40_execution_cycle.md R77).
Resolution reads `pc`, `rb` and `mem` and writes nothing. -/

namespace Sys2Proof.Machine

/-- The raw operand of parameter `i`: the cell at `pc + i`, or PC_OVF where that address exceeds `2^63 - 1` (R64). -/
def rawOperand (s : State) (i : Nat) : Except FaultCode I64 :=
  if maxI < s.pc.val + i then .error .pcOvf else s.load .pcNeg (s.pc.val + i)

/-- The address a raw operand stands for, before it is checked: `raw` in mode 0 (R65), the exact sum `rb + raw` in
mode 2 (R67). Mode 1 has no address (R66); the value given for it is not used. -/
def addressSum (s : State) (m : Mode) (raw : I64) : Int :=
  match m with
  | .position => raw.val
  | .immediate => raw.val
  | .relative => s.rb.val + raw.val

/-- The effective address: a negative sum is EA_NEG, checked before a sum above `2^63 - 1`, which is EA_OVF (R65, R67). -/
def effectiveAddress (s : State) (m : Mode) (raw : I64) : Except FaultCode Nat :=
  if addressSum s m raw < 0 then .error .eaNeg
  else if maxI < addressSum s m raw then .error .eaOvf
  else .ok (addressSum s m raw).toNat

/-- The value a read parameter's raw operand stands for: itself in mode 1, the cell at the effective address in modes 0
and 2, whether or not that cell is beyond the extent or the capacity (R66, R68). -/
def readOperand (s : State) (m : Mode) (raw : I64) : Except FaultCode I64 :=
  match m with
  | .immediate => .ok raw
  | .position | .relative =>
    match effectiveAddress s m raw with
    | .ok a => .ok (s.mem.read a)
    | .error c => .error c

/-- The target a write-target's raw operand stands for: an address at or beyond `MEM_CAPACITY` is OutOfMemory (R69). -/
def writeOperand (s : State) (m : Mode) (raw : I64) : Except FaultCode Nat :=
  match effectiveAddress s m raw with
  | .ok a => if s.cfg.memCapacity ≤ a then .error .writeBeyondCapacity else .ok a
  | .error c => .error c

/-- `Resolve` of a read parameter (R70): its value. -/
def resolveRead (s : State) (i : Nat) (m : Mode) : Except FaultCode I64 :=
  match rawOperand s i with
  | .ok raw => readOperand s m raw
  | .error c => .error c

/-- `Resolve` of a write-target (R70): the address of the cell to be written. Mode 1 is the malformed encoding that
`Decode` reports first (R62, R66), so it is reported before the parameter cell is read. -/
def resolveWrite (s : State) (i : Nat) (m : Mode) : Except FaultCode Nat :=
  if m = .immediate then .error .writeImmediate
  else match rawOperand s i with
    | .ok raw => writeOperand s m raw
    | .error c => .error c

/-- The sequential next `pc` of an instruction with `n` parameters: `pc + 1 + n`, or PC_OVF (R77). -/
def nextPc (s : State) (n : Nat) : Except FaultCode I64 := narrow .pcOvf (s.pc.val + 1 + n)

/-- Stages 3 to 5 of ADD, MUL, LT and EQ (R81): resolve `a`, `b` and the target `c`, compute the next `pc` and the value,
then store the value in cell `c` and advance. -/
def storeBinary (value : I64 → I64 → Except FaultCode I64) (m1 m2 m3 : Mode) (s : State) :
    Host.Outcome State Fault Refusal :=
  s.check (resolveRead s 1 m1) fun a =>
  s.check (resolveRead s 2 m2) fun b =>
  s.check (resolveWrite s 3 m3) fun c =>
  s.check (nextPc s 3) fun npc =>
  s.check (value a b) fun v =>
  .next ((s.storeCell c v).setPc npc)

/-- Stages 3 to 5 of JNZ and JZ (R81): both parameters and the next `pc` are computed whether or not the jump is taken
(R70, R77); the target `b` goes into `pc` unchecked (R95). -/
def jumpIf (taken : I64 → Bool) (m1 m2 : Mode) (s : State) : Host.Outcome State Fault Refusal :=
  s.check (resolveRead s 1 m1) fun a =>
  s.check (resolveRead s 2 m2) fun b =>
  s.check (nextPc s 2) fun npc =>
  .next (s.setPc (if taken a then b else npc))

end Sys2Proof.Machine
end

