-- ==== Sys2Proof/Machine/Arithmetic.lean ====
section
/-! DEFINITION. ADD and MUL (41_arithmetic.md R85 to R88). -/

namespace Sys2Proof.Machine

/-- ADD, opcode 1: `c := a + b`, ALU_OVF where the exact sum does not fit (R85, R88). -/
def execAdd (m1 m2 m3 : Mode) (s : State) : Host.Outcome State Fault Refusal := storeBinary addValue m1 m2 m3 s

/-- MUL, opcode 2: `c := a * b`, ALU_OVF where the exact product does not fit (R86, R88). -/
def execMul (m1 m2 m3 : Mode) (s : State) : Host.Outcome State Fault Refusal := storeBinary mulValue m1 m2 m3 s

end Sys2Proof.Machine
end

