-- ==== Sys2Proof/Machine/Compare.lean ====
section
/-! DEFINITION. LT and EQ (44_compare.md R97 to R100). -/

namespace Sys2Proof.Machine

/-- LT, opcode 7: `c := 1 if a < b else 0` (R97). -/
def execLt (m1 m2 m3 : Mode) (s : State) : Host.Outcome State Fault Refusal := storeBinary ltValue m1 m2 m3 s

/-- EQ, opcode 8: `c := 1 if a == b else 0` (R98). -/
def execEq (m1 m2 m3 : Mode) (s : State) : Host.Outcome State Fault Refusal := storeBinary eqValue m1 m2 m3 s

end Sys2Proof.Machine
end

