-- ==== Sys2Proof/Machine/Control.lean ====
section
/-! DEFINITION. JNZ and JZ (43_control_transfer.md R93 to R95). -/

namespace Sys2Proof.Machine

/-- JNZ, opcode 5: `pc := b` where `a` is not 0, else advance (R93). -/
def execJnz (m1 m2 : Mode) (s : State) : Host.Outcome State Fault Refusal := jumpIf (fun a => a.val ≠ 0) m1 m2 s

/-- JZ, opcode 6: `pc := b` where `a` is 0, else advance (R94). -/
def execJz (m1 m2 : Mode) (s : State) : Host.Outcome State Fault Refusal := jumpIf (fun a => a.val = 0) m1 m2 s

end Sys2Proof.Machine
end

