-- ==== Sys2Proof/Machine/Halt.lean ====
section
/-! DEFINITION. HALT (46_halt.md R103, R104). -/

namespace Sys2Proof.Machine

/-- HALT, opcode 99 (R103): set `halted`, advance `pc` by 1 and yield `Halted`. -/
def execHalt (s : State) : Host.Outcome State Fault Refusal :=
  s.check (nextPc s 0) fun npc =>
  .next ((s.setHalted.setPc npc).yieldResult .halted)

end Sys2Proof.Machine
end

