-- ==== Sys2Proof/Machine/InOut.lean ====
section
/-! DEFINITION. IN and OUT (42_io.md R89 to R92). -/

namespace Sys2Proof.Machine

/-- IN, opcode 3 (R89): the target and the next `pc` are resolved before the FIFO is looked at; an empty FIFO yields
`NeedInput` with nothing changed, else the oldest value is popped into the target's cell. -/
def execInp (m1 : Mode) (s : State) : Host.Outcome State Fault Refusal :=
  s.check (resolveWrite s 1 m1) fun a =>
  s.check (nextPc s 1) fun npc =>
  match s.inq with
  | [] => .next (s.yieldResult .needInput)
  | v :: q => .next (((s.setInq q).storeCell a v).setPc npc)

/-- OUT, opcode 4 (R90): advance past the instruction and yield `Output(a)`. -/
def execOut (m1 : Mode) (s : State) : Host.Outcome State Fault Refusal :=
  s.check (resolveRead s 1 m1) fun a =>
  s.check (nextPc s 1) fun npc =>
  .next ((s.setPc npc).yieldResult (.output a))

end Sys2Proof.Machine
end

