-- ==== Sys2Proof/Machine/RelativeBase.lean ====
section
/-! DEFINITION. ARB (45_relative_base.md R101, R102). -/

namespace Sys2Proof.Machine

/-- ARB, opcode 9 (R101): `rb <- rb + a`, ALU_OVF where the exact sum does not fit; the parameter is resolved with the old
`rb`, and the new value is not checked against the address range (R102). -/
def execArb (m1 : Mode) (s : State) : Host.Outcome State Fault Refusal :=
  s.check (resolveRead s 1 m1) fun a =>
  s.check (nextPc s 1) fun npc =>
  s.check (arbValue s.rb a) fun v =>
  .next ((s.setRb v).setPc npc)

end Sys2Proof.Machine
end

