-- ==== Sys2Proof/Machine/HostTurn.lean ====
section
/-! DEFINITION. The host transactions (47_run_control_and_io_channel.md R105 to R121): HostLoad, HostInput and its bulk
forms, and the start of a HostRun. The loop of HostRun (R113) is the machine's step while a HostRun is in progress. -/

namespace Sys2Proof.Machine

/-- HostLoad(P) (R105, R107): the reset state of R30 with the program in memory, refused with no state change where the
program is longer than `MEM_CAPACITY`. It discards the previous instance entirely, in every phase but RUNNING. -/
def hostLoad (program : List I64) (s : State) : State :=
  if program.length ≤ s.cfg.memCapacity then
    { s with
      mem := Memory.ofProgram program
      extent := program.length
      pc := I64.zero
      rb := I64.zero
      inq := []
      halted := false
      fault := none
      running := false }
  else s.reply .refused

/-- The FIFO holds `FIFO_CAPACITY` values (R112). -/
def State.fifoFull (s : State) : Bool :=
  match s.cfg.fifoCapacity with
  | none => false
  | some n => decide (n ≤ s.inq.length)

/-- HostInput is accepted: no fault is recorded (R109) and the FIFO is not full (R112). -/
def State.acceptsInput (s : State) : Bool := decide (s.fault = none) && !s.fifoFull

/-- Append one value as the newest of the FIFO (R108). -/
def State.push (s : State) (v : I64) : State := s.setInq (s.inq ++ [v])

/-- HostInput(v) (R108, R109, R112): append the value, or refuse with no state change. -/
def hostInput (v : I64) (s : State) : State := if s.acceptsInput then s.push v else s.reply .refused

/-- HostInputMany(V) (R110, R112): the values are pushed one at a time in order, and the first refusal leaves the earlier
values queued and the later ones not. -/
def hostInputMany : List I64 → State → State
  | [], s => s
  | v :: vs, s => if s.acceptsInput then hostInputMany vs (s.push v) else s.reply .refused

/-- The code point of a character as an input value (R111). -/
def codePoint (c : Char) : I64 :=
  ⟨c.toNat, by have := c.val.toNat_lt; simp only [minI]; omega,
   by have : c.toNat < 2 ^ 32 := c.val.toNat_lt; simp only [maxI]; omega⟩

/-- HostInputAscii(T) (R111): HostInputMany of the code points of the characters in order; nothing is added. -/
def hostInputAscii (text : List Char) (s : State) : State := hostInputMany (text.map codePoint) s

/-- The start of HostRun() (R113 to R115): refused in phase FAULTED, `Halted` with no side effects in phase HALTED, else the
CORE is RUNNING. -/
def hostRun (s : State) : State :=
  match s.phase with
  | .faulted => s.reply .refused
  | .halted => s.reply .halted
  | .suspended | .running => { s with running := true }

/-- One transaction of the host (R121). -/
def perform (t : Transaction) (s : State) : State :=
  match t with
  | .load program => hostLoad program s
  | .input v => hostInput v s
  | .inputMany vs => hostInputMany vs s
  | .inputAscii text => hostInputAscii text s
  | .run => hostRun s

/-- The host's turn while no HostRun is in progress: it performs its next transaction; while it performs none, the state
does not change (R120, R144). -/
def hostTurn (s : State) : State :=
  match s.pending with
  | [] => s
  | t :: ts => perform t { s with pending := ts }

end Sys2Proof.Machine
end

