-- ==== Sys2Proof/Machine/Step.lean ====
section
/-! DEFINITION. One step of the machine: one instruction of the engine in phase RUNNING (40_execution_cycle.md R81), one
turn of the host in every other phase (47_run_control_and_io_channel.md R120, R121). -/

namespace Sys2Proof.Machine

/-- `Step` of R81: fetch and decode, then execute; a fault of the first two stages is taken here. -/
def engineStep (s : State) : Host.Outcome State Fault Refusal :=
  s.check s.fetchDecode fun i => exec i s

/-- One step. A FAULTED or HALTED CORE executes no instruction (R133, R104), and host transactions do not overlap a
HostRun (R120). -/
def step (s : State) : Host.Outcome State Fault Refusal :=
  match s.phase with
  | .running => engineStep s
  | .suspended | .halted | .faulted => .next (hostTurn s)

/-- The state in which the very next step fetches and runs the instruction whose bits are `w`: its four cells are put at
`pc`, and the CORE is RUNNING (a HostRun in progress, not halted, no fault recorded). Nothing else is changed. -/
def State.withFetchWord (s : State) (_nbits w : Nat) : State :=
  { s.placeAtPc (cellsOfBits w) with halted := false, fault := none, running := true }

end Sys2Proof.Machine
end

