-- ==== Sys2Proof/Safety.lean ====
section
/-! DEFINITION. The terms statements about CORE use: the invariant of the machine, the operands of an instruction and the
first fault of its resolution in the spec's own words, and runs of the machine. None of them is used by the machine. -/

namespace Sys2Proof.Safety

open Sys2Proof.Machine

/-- The invariant of CORE: legal parameters (R7, R8); canonical memory inside the extent (R21, R34), and the extent within
the capacity (R36, R107); the FIFO within its capacity (R112); a HostRun in progress only where neither a fault nor HALT
has ended the run (R25, R73); and HALT and a fault exclude each other (R104, R133). -/
abbrev Inv (s : State) : Prop :=
  s.cfg.wf ∧ s.mem.wf ∧ (∀ e ∈ s.mem, e.1 < s.extent) ∧ s.extent ≤ s.cfg.memCapacity ∧
  s.cfg.fifoCapacity.all (fun n => decide (s.inq.length ≤ n)) = true ∧
  (s.running = true → s.fault = none ∧ s.halted = false) ∧ (s.halted = true → s.fault = none)

/-- The cell of parameter `i`, `Mem[pc + i]` (R50, R64). -/
def rawCell (s : State) (i : Nat) : I64 := s.mem.read (s.pc.val + i).toNat

/-- The exact address of parameter `i` in mode 0 (R65) or mode 2 (R67). -/
def address (s : State) (i : Nat) (m : Mode) : Int :=
  if m = .relative then s.rb.val + (rawCell s i).val else (rawCell s i).val

/-- The value of read parameter `i` (R66, R68). -/
def operand (s : State) (i : Nat) (m : Mode) : I64 :=
  if m = .immediate then rawCell s i else s.mem.read (address s i m).toNat

/-- The target of write parameter `i` (R69). -/
def target (s : State) (i : Nat) (m : Mode) : Nat := (address s i m).toNat

/-- The first fault of one parameter (R134 stage 3); an Immediate write-target is the malformed encoding of R62. -/
def paramFault (s : State) (i : Nat) (k : ParamKind) (m : Mode) : Option FaultCode :=
  if k = .write ∧ m = .immediate then some .writeImmediate
  else if maxI < s.pc.val + i then some .pcOvf
  else if m = .immediate then none
  else if address s i m < 0 then some .eaNeg
  else if maxI < address s i m then some .eaOvf
  else if k = .write ∧ (s.cfg.memCapacity : Int) ≤ address s i m then some .writeBeyondCapacity
  else none

/-- The first fault of the parameters from number `i` on, in ascending order (R70). -/
def paramsFault (s : State) : Nat → List ParamKind → List Mode → Option FaultCode
  | i, k :: ks, m :: ms =>
    match paramFault s i k m with
    | some c => some c
    | none => paramsFault s (i + 1) ks ms
  | _, _, _ => none

/-- The fault of stages 3 and 4 of an instruction at `pc >= 0`: its parameters in order (R70), then the next `pc` (R77);
`none` where the instruction gets to its operation. -/
def resolutionFault (s : State) (i : Instr) : Option FaultCode :=
  match paramsFault s 1 i.kinds i.modes with
  | some c => some c
  | none => if maxI < s.pc.val + 1 + i.numParams then some .pcOvf else none

/-- The legal instruction words, row by row as the opcode table lists them (R58). -/
def legalWords : List Nat :=
  [1, 101, 201, 1001, 1101, 1201, 2001, 2101, 2201, 20001, 20101, 20201, 21001, 21101, 21201, 22001, 22101, 22201] ++
  [2, 102, 202, 1002, 1102, 1202, 2002, 2102, 2202, 20002, 20102, 20202, 21002, 21102, 21202, 22002, 22102, 22202] ++
  [3, 203] ++
  [4, 104, 204] ++
  [5, 105, 205, 1005, 1105, 1205, 2005, 2105, 2205] ++
  [6, 106, 206, 1006, 1106, 1206, 2006, 2106, 2206] ++
  [7, 107, 207, 1007, 1107, 1207, 2007, 2107, 2207, 20007, 20107, 20207, 21007, 21107, 21207, 22007, 22107, 22207] ++
  [8, 108, 208, 1008, 1108, 1208, 2008, 2108, 2208, 20008, 20108, 20208, 21008, 21108, 21208, 22008, 22108, 22208] ++
  [9, 109, 209] ++
  [99]

/-- A HostRun in progress, followed for at most `fuel` steps: the state in which it ended, `none` where it has not ended
yet. There is no bound at which a hang becomes a result (R119, R145). -/
def runToEnd : Nat → State → Option State
  | 0, s => if s.running then none else some s
  | fuel + 1, s =>
    if s.running then
      match step s with
      | .next t => runToEnd fuel t
      | .fault _ => none
      | .refused _ => none
    else some s

end Sys2Proof.Safety
end

