-- ==== Sys2Proof/Safety/Pseudocode.lean ====
section
/-! DEFINITION. The pseudocode of the spec written out as it stands there, over opcode numbers, mode digits and exact
integers: `Decode` (R63), `Resolve` (R70), `Step` (R81) and the part of `HostRun` (R113) that takes a step's outcome. The
machine does not use it; statements hold the machine against it. -/

namespace Sys2Proof.Pseudocode

open Sys2Proof.Machine

/-- The signature table (R56): the kinds of the parameters of an assigned opcode. -/
def signature (op : Nat) : Option (List ParamKind) :=
  if op ∈ [1, 2, 7, 8] then some [.read, .read, .write]
  else if op = 3 then some [.write]
  else if op ∈ [4, 9] then some [.read]
  else if op ∈ [5, 6] then some [.read, .read]
  else if op = 99 then some []
  else none

/-- The loop over the used parameters in `Decode` (R63): the first bad mode or Immediate write-target. -/
def modeFault : List ParamKind → List Nat → Option FaultCode
  | k :: ks, d :: ds =>
    if 2 < d then some .badMode
    else if k = .write ∧ d = 1 then some .writeImmediate
    else modeFault ks ds
  | _, _ => none

/-- `Decode(w)` (R63): the opcode with the kind and the mode digit of each parameter. -/
def decode (w : Int) : Except FaultCode (Nat × List (ParamKind × Nat)) :=
  if w < 0 then .error .negWord
  else
    let n := w.toNat
    let m := [digit 2 n, digit 3 n, digit 4 n]
    match signature (n % 100) with
    | none => .error .badOpcode
    | some kinds =>
      if n / 100000 ≠ 0 ∨ ∃ d ∈ m.drop kinds.length, d ≠ 0 then .error .reservedDigit
      else match modeFault kinds m with
        | some c => .error c
        | none => .ok (n % 100, kinds.zip m)

/-- `Resolve(i, kind, mode)` (R70): a value for kind R, an address for kind W. -/
def resolve (s : State) (i : Nat) (kind : ParamKind) (mode : Nat) : Except FaultCode Int :=
  if maxI < s.pc.val + i then .error .pcOvf
  else
    let raw := (s.mem.read (s.pc.val + i).toNat).val
    if mode = 1 then .ok raw
    else
      let e := if mode = 2 then s.rb.val + raw else raw
      if e < 0 then .error .eaNeg
      else if maxI < e then .error .eaOvf
      else if kind = .read then .ok (s.mem.read e.toNat).val
      else if (s.cfg.memCapacity : Int) ≤ e then .error .writeBeyondCapacity
      else .ok e

/-- Stage 3 of `Step` (R76): resolve the parameters from number `i` on, in ascending order. -/
def resolveAll (s : State) : Nat → List (ParamKind × Nat) → Except FaultCode (List Int)
  | _, [] => .ok []
  | i, (k, d) :: ps =>
    match resolve s i k d with
    | .error c => .error c
    | .ok v =>
      match resolveAll s (i + 1) ps with
      | .error c => .error c
      | .ok vs => .ok (v :: vs)

/-- The outcome of `Step` (R14): `Continue`, `Yield(r)`, or `Fault` with a code, the `fpc` being `pc`. -/
inductive StepOutcome where
  | cont (s : State)
  | yield (r : Answer) (s : State)
  | fault (c : FaultCode)

/-- The value of I64 an exact integer is, where it fits. -/
def cell (v : Int) : I64 := if h : Fits v then ⟨v, h.1, h.2⟩ else I64.zero

/-- `MemWrite(addr, 1, v)` followed by `pc <- npc`, with the growth of R34. -/
def storeAndAdvance (s : State) (addr v npc : Int) : State :=
  { s with mem := s.mem.write addr.toNat (cell v), extent := max s.extent (addr.toNat + 1), pc := cell npc }

/-- Stage 5 of `Step` (R81) for opcode `op` with the resolved parameters `p` and the next `pc`. -/
def execute (s : State) (op : Nat) (p : List Int) (npc : Int) : StepOutcome :=
  let a := p.getD 0 0
  let b := p.getD 1 0
  let c := p.getD 2 0
  match op with
  | 1 => if ¬ Fits (a + b) then .fault .aluOvf else .cont (storeAndAdvance s c (a + b) npc)
  | 2 => if ¬ Fits (a * b) then .fault .aluOvf else .cont (storeAndAdvance s c (a * b) npc)
  | 3 =>
    match s.inq with
    | [] => .yield .needInput s
    | v :: q => .cont (storeAndAdvance { s with inq := q } a v.val npc)
  | 4 => .yield (.output (cell a)) { s with pc := cell npc }
  | 5 => .cont { s with pc := if a ≠ 0 then cell b else cell npc }
  | 6 => .cont { s with pc := if a = 0 then cell b else cell npc }
  | 7 => .cont (storeAndAdvance s c (if a < b then 1 else 0) npc)
  | 8 => .cont (storeAndAdvance s c (if a = b then 1 else 0) npc)
  | 9 => if ¬ Fits (s.rb.val + a) then .fault .aluOvf else .cont { s with rb := cell (s.rb.val + a), pc := cell npc }
  | _ => .yield .halted { s with halted := true, pc := cell npc }

/-- `Step(S)` in full (R81). -/
def step (s : State) : StepOutcome :=
  if s.pc.val < 0 then .fault .pcNeg
  else
    match decode (s.mem.read s.pc.val.toNat).val with
    | .error c => .fault c
    | .ok (op, ps) =>
      match resolveAll s 1 ps with
      | .error c => .fault c
      | .ok p =>
        let npc := s.pc.val + 1 + ps.length
        if maxI < npc then .fault .pcOvf else execute s op p npc

/-- What the loop of `HostRun` (R113) makes of one outcome of `Step`: go on, return a result, or record the fault and
return the fault indication. -/
def settle (s : State) : StepOutcome → State
  | .cont t => t
  | .yield r t => { t with running := false, results := t.results ++ [r] }
  | .fault c =>
    { s with fault := some ⟨c, s.pc⟩, running := false, results := s.results ++ [.fault ⟨c, s.pc⟩] }

/-- The loop of `HostRun` (R113) from a state in which the run is in progress, for at most `fuel` iterations: the state the
host is answered in, `none` where the run has not ended yet. -/
def hostRunLoop : Nat → State → Option State
  | 0, _ => none
  | fuel + 1, s =>
    match step s with
    | .cont t => hostRunLoop fuel t
    | .yield r t => some (settle s (.yield r t))
    | .fault c => some (settle s (.fault c))

end Sys2Proof.Pseudocode
end

