-- ==== Sys2Proof/Certificates/Slice0/Obligations.lean ====
section
/-! DEFINITION. The statements for the provers, each over all states unless it says otherwise. Operands, targets and the
first fault of an instruction are those of Sys2Proof/Safety.lean, written in the spec's own words. How the model holds what
the rules speak of is its own choice: a HostRun in progress is `running` (notes/assumptions/4.md), the host's coming
transactions `pending` (5.md), what the host is answered `results` (6.md, a refusal too: 14.md), the parameters `cfg` (2.md),
and a fault is the next state R131 describes (3.md). -/

open Sys2Proof Sys2Proof.Machine Sys2Proof.Safety

/-! ### Encoding -/

/-- R63: the decoder reads every cell value as the pseudocode of `Decode` does, the same instruction with the same kinds and
mode digits, or the same first fault. -/
def Obligations.DecodeFollowsPseudocode : Prop :=
  ∀ w : I64, Pseudocode.decode w.val =
    match decode w with
    | .ok i => .ok (i.opcode, i.kinds.zip (i.modes.map Mode.digit))
    | .error c => .error c

/-- R51, R56, R58, R62: a cell decodes to an instruction exactly if it is the encoding of that well-formed instruction, so
decoding undoes encoding and no two cells decode to one instruction. -/
def Obligations.DecodeInvertsEncode : Prop :=
  ∀ (w : I64) (i : Instr), decode w = .ok i ↔ i.wf = true ∧ encode i = w

/-- R58: the cells that decode are exactly the 99 legal words of the opcode table, with the counts the rule gives. -/
def Obligations.LegalWordsAreThoseOfTable : Prop :=
  (∀ w : I64, (∃ i, decode w = .ok i) ↔ ∃ n ∈ legalWords, w.val = (n : Int)) ∧
  legalWords.Nodup ∧ legalWords.length = 99 ∧
  (∀ op ∈ [1, 2, 7, 8], legalWords.countP (fun n => n % 100 == op) = 18) ∧
  legalWords.countP (fun n => n % 100 == 3) = 2 ∧ legalWords.countP (fun n => n % 100 == 4) = 3 ∧
  legalWords.countP (fun n => n % 100 == 5) = 9 ∧ legalWords.countP (fun n => n % 100 == 6) = 9 ∧
  legalWords.countP (fun n => n % 100 == 9) = 3 ∧ legalWords.countP (fun n => n % 100 == 99) = 1

/-- R51, R56, R63: one word for each opcode with the instruction its decimal digits stand for. Eight of them occur in the
document's programs (30_encoding.md section 6); 1205 and 21207 are from the spec's own program P-C (95_test_vectors.md). -/
def Obligations.WrittenOutWordsDecode : Prop :=
  ∀ w : I64,
    (w.val = 99 → decode w = .ok .halt) ∧
    (w.val = 3 → decode w = .ok (.inp .position)) ∧
    (w.val = 204 → decode w = .ok (.out .relative)) ∧
    (w.val = 109 → decode w = .ok (.arb .immediate)) ∧
    (w.val = 1001 → decode w = .ok (.add .position .immediate .position)) ∧
    (w.val = 1102 → decode w = .ok (.mul .immediate .immediate .position)) ∧
    (w.val = 1006 → decode w = .ok (.jz .position .immediate)) ∧
    (w.val = 1205 → decode w = .ok (.jnz .relative .immediate)) ∧
    (w.val = 21207 → decode w = .ok (.lt .relative .immediate .relative)) ∧
    (w.val = 1008 → decode w = .ok (.eq .position .immediate .position))

/-- R52: a negative word decodes to no instruction, and a CORE that fetches one takes NEG_WORD. -/
def Obligations.NegativeWordIsMalformed : Prop :=
  (∀ w : I64, w.val < 0 → decode w = .error .negWord) ∧
  ∀ s : State, s.phase = .running → 0 ≤ s.pc.val → (s.mem.read s.pc.val.toNat).val < 0 →
    step s = .next (s.takeFault .negWord)

/-- R59: a non-negative word whose two lowest digits are none of the ten opcodes is BAD_OPCODE, and so is a fetch from a
cell that memory does not list. -/
def Obligations.UnassignedOpcodeIsMalformed : Prop :=
  (∀ w : I64, 0 ≤ w.val → w.val.toNat % 100 ∉ [1, 2, 3, 4, 5, 6, 7, 8, 9, 99] → decode w = .error .badOpcode) ∧
  ∀ s : State, s.phase = .running → 0 ≤ s.pc.val → (∀ e ∈ s.mem, e.1 ≠ s.pc.val.toNat) →
    step s = .next (s.takeFault .badOpcode)

/-- R60: a mode digit of 3 to 9 in a used mode field is BAD_MODE, in a word whose reserved digits are 0 (R63 checks those
first; a parameter before the bad one is no write-target, so nothing else is reported before it). -/
def Obligations.BadModeIsMalformed : Prop :=
  ∀ (w : I64) (kinds : List ParamKind) (j : Nat), 0 ≤ w.val →
    Pseudocode.signature (w.val.toNat % 100) = some kinds → w.val.toNat / 10 ^ (kinds.length + 2) = 0 →
    1 ≤ j → j ≤ kinds.length → 2 < digit (j + 1) w.val.toNat → decode w = .error .badMode

/-- R61: a word with an assigned opcode and a non-zero digit in an unused mode field or at weight `10^5` and above is
RESERVED_DIGIT. -/
def Obligations.ReservedDigitIsMalformed : Prop :=
  ∀ (w : I64) (kinds : List ParamKind), 0 ≤ w.val → Pseudocode.signature (w.val.toNat % 100) = some kinds →
    (w.val.toNat / 100000 ≠ 0 ∨ ∃ j, kinds.length < j ∧ j ≤ 3 ∧ digit (j + 1) w.val.toNat ≠ 0) →
    decode w = .error .reservedDigit

/-- R62: the word of an instruction with an Immediate write-target is WRITE_IMMEDIATE. -/
def Obligations.ImmediateTargetIsMalformed : Prop :=
  ∀ i : Instr, i.wf = false → decode (encode i) = .error .writeImmediate

/-! ### Memory -/

/-- R37: memory behaves as a total map with default 0: after a HostLoad that is accepted it holds the program and 0
elsewhere, and a store changes the value at its own address and at no other. -/
def Obligations.MemoryIsTotalMap : Prop :=
  (∀ (program : List I64) (s : State), program.length ≤ s.cfg.memCapacity →
    ∀ i, (hostLoad program s).mem.read i = program.getD i I64.zero) ∧
  ∀ (s : State) (a : Nat) (v : I64) (b : Nat), (s.storeCell a v).mem.read b = if b = a then v else s.mem.read b

/-- R48: a stored value is what the next fetch at that address decodes. -/
def Obligations.StoreIsSeenByNextFetch : Prop :=
  ∀ (s : State) (a : Nat) (v npc : I64), npc.val = (a : Int) →
    ((s.storeCell a v).setPc npc).fetchDecode = decode v

/-- R34: a cell at or beyond the extent reads 0, whichever state of the invariant it is read in; a store beyond the extent
grows it to just above the cell stored to and leaves the cells between at 0; a store below the extent does not grow it. -/
def Obligations.StoreGrowsExtent : Prop :=
  ∀ s : State, Inv s →
    (∀ a, s.extent ≤ a → s.mem.read a = I64.zero) ∧
    ∀ (a : Nat) (v : I64),
      (s.extent ≤ a → (s.storeCell a v).extent = a + 1 ∧
        ∀ b, s.extent ≤ b → b < a → (s.storeCell a v).mem.read b = I64.zero) ∧
      (a < s.extent → (s.storeCell a v).extent = s.extent) ∧ (s.storeCell a v).mem.read a = v

/-! ### Parameter resolution and the order of faults -/

/-- R64 to R69: at a non-negative `pc` a parameter resolves as the pseudocode of `Resolve` says, to the same value or
address or to the same fault; a write-target is never Immediate there (R66). -/
def Obligations.ResolveFollowsPseudocode : Prop :=
  ∀ (s : State) (i : Nat) (m : Mode), 0 ≤ s.pc.val →
    (Pseudocode.resolve s i .read m.digit =
      match resolveRead s i m with
      | .ok v => .ok v.val
      | .error c => .error c) ∧
    (m ≠ .immediate → Pseudocode.resolve s i .write m.digit =
      match resolveWrite s i m with
      | .ok a => .ok (a : Int)
      | .error c => .error c)

/-- R134: one instruction reports one fault, the first failing check in the order fetch, decode, resolution of parameter 1
to 3, next `pc`, execute. -/
def Obligations.FaultPriority : Prop :=
  ∀ s : State, s.phase = .running →
    (s.pc.val < 0 → step s = .next (s.takeFault .pcNeg)) ∧
    (0 ≤ s.pc.val →
      (∀ c, Pseudocode.decode (s.mem.read s.pc.val.toNat).val = .error c → step s = .next (s.takeFault c)) ∧
      (∀ i c, decode (s.mem.read s.pc.val.toNat) = .ok i → resolutionFault s i = some c →
        step s = .next (s.takeFault c)) ∧
      (∀ m1 m2 m3, decode (s.mem.read s.pc.val.toNat) = .ok (.add m1 m2 m3) →
        resolutionFault s (.add m1 m2 m3) = none → ¬ Fits ((operand s 1 m1).val + (operand s 2 m2).val) →
        step s = .next (s.takeFault .aluOvf)) ∧
      (∀ m1 m2 m3, decode (s.mem.read s.pc.val.toNat) = .ok (.mul m1 m2 m3) →
        resolutionFault s (.mul m1 m2 m3) = none → ¬ Fits ((operand s 1 m1).val * (operand s 2 m2).val) →
        step s = .next (s.takeFault .aluOvf)) ∧
      (∀ m1, decode (s.mem.read s.pc.val.toNat) = .ok (.arb m1) →
        resolutionFault s (.arb m1) = none → ¬ Fits (s.rb.val + (operand s 1 m1).val) →
        step s = .next (s.takeFault .aluOvf)))

/-- R126: the cause and the detail of each of the eleven faults, as the table numbers them. -/
def Obligations.FaultCodesFollowTable : Prop :=
  ∀ (c : FaultCode) (fpc : I64), ((⟨c, fpc⟩ : FaultRecord).cause, (⟨c, fpc⟩ : FaultRecord).detail) =
    match c with
    | .negWord => (1, 1)
    | .badOpcode => (1, 2)
    | .reservedDigit => (1, 3)
    | .badMode => (1, 4)
    | .writeImmediate => (1, 5)
    | .pcNeg => (2, 1)
    | .eaNeg => (2, 2)
    | .pcOvf => (3, 1)
    | .eaOvf => (3, 2)
    | .aluOvf => (3, 3)
    | .writeBeyondCapacity => (4, 1)

/-! ### The ten instructions: completion, faults and encoding -/

/-- R85: ADD stores the exact sum in its target's cell and advances by 4; a sum outside I64 is ALU_OVF, and a resolution
fault comes before it. -/
def Obligations.AddRule : Prop :=
  (∀ (m1 m2 m3 : Mode) (s : State), 0 ≤ s.pc.val →
    (∀ v npc : I64, resolutionFault s (.add m1 m2 m3) = none →
      v.val = (operand s 1 m1).val + (operand s 2 m2).val → npc.val = s.pc.val + 4 →
      exec (.add m1 m2 m3) s = .next { s with
        mem := s.mem.write (target s 3 m3) v
        extent := max s.extent (target s 3 m3 + 1)
        pc := npc }) ∧
    (resolutionFault s (.add m1 m2 m3) = none → ¬ Fits ((operand s 1 m1).val + (operand s 2 m2).val) →
      exec (.add m1 m2 m3) s = .next (s.takeFault .aluOvf)) ∧
    (∀ c, resolutionFault s (.add m1 m2 m3) = some c → exec (.add m1 m2 m3) s = .next (s.takeFault c))) ∧
  (∀ (m1 m2 m3 : Mode) (w : I64), decode w = .ok (.add m1 m2 m3) ↔
    m3 ≠ .immediate ∧ w.val = 1 + 100 * m1.digit + 1000 * m2.digit + 10000 * m3.digit) ∧
  ∀ m1 m2 : Mode, decode (encode (.add m1 m2 .immediate)) = .error .writeImmediate

/-- R86: MUL stores the exact product in its target's cell and advances by 4; a product outside I64 is ALU_OVF, and a
resolution fault comes before it. -/
def Obligations.MulRule : Prop :=
  (∀ (m1 m2 m3 : Mode) (s : State), 0 ≤ s.pc.val →
    (∀ v npc : I64, resolutionFault s (.mul m1 m2 m3) = none →
      v.val = (operand s 1 m1).val * (operand s 2 m2).val → npc.val = s.pc.val + 4 →
      exec (.mul m1 m2 m3) s = .next { s with
        mem := s.mem.write (target s 3 m3) v
        extent := max s.extent (target s 3 m3 + 1)
        pc := npc }) ∧
    (resolutionFault s (.mul m1 m2 m3) = none → ¬ Fits ((operand s 1 m1).val * (operand s 2 m2).val) →
      exec (.mul m1 m2 m3) s = .next (s.takeFault .aluOvf)) ∧
    (∀ c, resolutionFault s (.mul m1 m2 m3) = some c → exec (.mul m1 m2 m3) s = .next (s.takeFault c))) ∧
  (∀ (m1 m2 m3 : Mode) (w : I64), decode w = .ok (.mul m1 m2 m3) ↔
    m3 ≠ .immediate ∧ w.val = 2 + 100 * m1.digit + 1000 * m2.digit + 10000 * m3.digit) ∧
  ∀ m1 m2 : Mode, decode (encode (.mul m1 m2 .immediate)) = .error .writeImmediate

/-- R89: IN pops the oldest input value into its target's cell and advances by 2; an empty FIFO yields `NeedInput` with
nothing else changed; a resolution fault comes before the FIFO is looked at. -/
def Obligations.InRule : Prop :=
  (∀ (m1 : Mode) (s : State), 0 ≤ s.pc.val →
    (∀ (v npc : I64) (q : List I64), resolutionFault s (.inp m1) = none → s.inq = v :: q → npc.val = s.pc.val + 2 →
      exec (.inp m1) s = .next { s with
        mem := s.mem.write (target s 1 m1) v
        extent := max s.extent (target s 1 m1 + 1)
        inq := q
        pc := npc }) ∧
    (resolutionFault s (.inp m1) = none → s.inq = [] →
      exec (.inp m1) s = .next { s with running := false, results := s.results ++ [.needInput] }) ∧
    (∀ c, resolutionFault s (.inp m1) = some c → exec (.inp m1) s = .next (s.takeFault c))) ∧
  (∀ (m1 : Mode) (w : I64), decode w = .ok (.inp m1) ↔ m1 ≠ .immediate ∧ w.val = 3 + 100 * m1.digit) ∧
  ∀ w : I64, (w.val = 103 → decode w = .error .writeImmediate) ∧
    (0 ≤ w.val → w.val.toNat % 100 = 3 → w.val.toNat / 1000 ≠ 0 → decode w = .error .reservedDigit)

/-- R90: OUT advances by 2 and ends the HostRun with `Output(a)`; it stores nothing. -/
def Obligations.OutRule : Prop :=
  (∀ (m1 : Mode) (s : State), 0 ≤ s.pc.val →
    (∀ npc : I64, resolutionFault s (.out m1) = none → npc.val = s.pc.val + 2 →
      exec (.out m1) s = .next { s with
        pc := npc
        running := false
        results := s.results ++ [.output (operand s 1 m1)] }) ∧
    (∀ c, resolutionFault s (.out m1) = some c → exec (.out m1) s = .next (s.takeFault c))) ∧
  (∀ (m1 : Mode) (w : I64), decode w = .ok (.out m1) ↔ w.val = 4 + 100 * m1.digit) ∧
  ∀ w : I64, 0 ≤ w.val → w.val.toNat % 100 = 4 →
    (w.val.toNat / 1000 ≠ 0 → decode w = .error .reservedDigit) ∧
    (w.val.toNat / 1000 = 0 → 2 < digit 2 w.val.toNat → decode w = .error .badMode)

/-- R93: JNZ writes its second operand into `pc` where its first is not 0, and else advances by 3; both operands are
resolved either way. -/
def Obligations.JnzRule : Prop :=
  (∀ (m1 m2 : Mode) (s : State), 0 ≤ s.pc.val →
    (∀ npc : I64, resolutionFault s (.jnz m1 m2) = none → npc.val = s.pc.val + 3 →
      exec (.jnz m1 m2) s = .next { s with pc := if (operand s 1 m1).val ≠ 0 then operand s 2 m2 else npc }) ∧
    (∀ c, resolutionFault s (.jnz m1 m2) = some c → exec (.jnz m1 m2) s = .next (s.takeFault c))) ∧
  (∀ (m1 m2 : Mode) (w : I64), decode w = .ok (.jnz m1 m2) ↔ w.val = 5 + 100 * m1.digit + 1000 * m2.digit) ∧
  ∀ w : I64, 0 ≤ w.val → w.val.toNat % 100 = 5 →
    (w.val.toNat / 10000 ≠ 0 → decode w = .error .reservedDigit) ∧
    (w.val.toNat / 10000 = 0 → 2 < digit 2 w.val.toNat ∨ 2 < digit 3 w.val.toNat → decode w = .error .badMode)

/-- R94: JZ writes its second operand into `pc` where its first is 0, and else advances by 3; both operands are resolved
either way. -/
def Obligations.JzRule : Prop :=
  (∀ (m1 m2 : Mode) (s : State), 0 ≤ s.pc.val →
    (∀ npc : I64, resolutionFault s (.jz m1 m2) = none → npc.val = s.pc.val + 3 →
      exec (.jz m1 m2) s = .next { s with pc := if (operand s 1 m1).val = 0 then operand s 2 m2 else npc }) ∧
    (∀ c, resolutionFault s (.jz m1 m2) = some c → exec (.jz m1 m2) s = .next (s.takeFault c))) ∧
  (∀ (m1 m2 : Mode) (w : I64), decode w = .ok (.jz m1 m2) ↔ w.val = 6 + 100 * m1.digit + 1000 * m2.digit) ∧
  ∀ w : I64, 0 ≤ w.val → w.val.toNat % 100 = 6 →
    (w.val.toNat / 10000 ≠ 0 → decode w = .error .reservedDigit) ∧
    (w.val.toNat / 10000 = 0 → 2 < digit 2 w.val.toNat ∨ 2 < digit 3 w.val.toNat → decode w = .error .badMode)

/-- R97: LT stores 1 where the signed comparison `a < b` holds and else 0, and advances by 4; no arithmetic fault is
possible. -/
def Obligations.LtRule : Prop :=
  (∀ (m1 m2 m3 : Mode) (s : State), 0 ≤ s.pc.val →
    (∀ npc : I64, resolutionFault s (.lt m1 m2 m3) = none → npc.val = s.pc.val + 4 →
      exec (.lt m1 m2 m3) s = .next { s with
        mem := s.mem.write (target s 3 m3)
          (if (operand s 1 m1).val < (operand s 2 m2).val then I64.one else I64.zero)
        extent := max s.extent (target s 3 m3 + 1)
        pc := npc }) ∧
    (∀ c, resolutionFault s (.lt m1 m2 m3) = some c → exec (.lt m1 m2 m3) s = .next (s.takeFault c))) ∧
  (∀ (m1 m2 m3 : Mode) (w : I64), decode w = .ok (.lt m1 m2 m3) ↔
    m3 ≠ .immediate ∧ w.val = 7 + 100 * m1.digit + 1000 * m2.digit + 10000 * m3.digit) ∧
  ∀ m1 m2 : Mode, decode (encode (.lt m1 m2 .immediate)) = .error .writeImmediate

/-- R98: EQ stores 1 where its operands are equal and else 0, and advances by 4. -/
def Obligations.EqRule : Prop :=
  (∀ (m1 m2 m3 : Mode) (s : State), 0 ≤ s.pc.val →
    (∀ npc : I64, resolutionFault s (.eq m1 m2 m3) = none → npc.val = s.pc.val + 4 →
      exec (.eq m1 m2 m3) s = .next { s with
        mem := s.mem.write (target s 3 m3)
          (if (operand s 1 m1).val = (operand s 2 m2).val then I64.one else I64.zero)
        extent := max s.extent (target s 3 m3 + 1)
        pc := npc }) ∧
    (∀ c, resolutionFault s (.eq m1 m2 m3) = some c → exec (.eq m1 m2 m3) s = .next (s.takeFault c))) ∧
  (∀ (m1 m2 m3 : Mode) (w : I64), decode w = .ok (.eq m1 m2 m3) ↔
    m3 ≠ .immediate ∧ w.val = 8 + 100 * m1.digit + 1000 * m2.digit + 10000 * m3.digit) ∧
  ∀ m1 m2 : Mode, decode (encode (.eq m1 m2 .immediate)) = .error .writeImmediate

/-- R101: ARB adds its operand, resolved with the old `rb`, to `rb` and advances by 2; a sum outside I64 is ALU_OVF, and a
resolution fault comes before it. Any value that fits is written, a negative one too (R102). -/
def Obligations.ArbRule : Prop :=
  (∀ (m1 : Mode) (s : State), 0 ≤ s.pc.val →
    (∀ v npc : I64, resolutionFault s (.arb m1) = none →
      v.val = s.rb.val + (operand s 1 m1).val → npc.val = s.pc.val + 2 →
      exec (.arb m1) s = .next { s with rb := v, pc := npc }) ∧
    (resolutionFault s (.arb m1) = none → ¬ Fits (s.rb.val + (operand s 1 m1).val) →
      exec (.arb m1) s = .next (s.takeFault .aluOvf)) ∧
    (∀ c, resolutionFault s (.arb m1) = some c → exec (.arb m1) s = .next (s.takeFault c))) ∧
  (∀ (m1 : Mode) (w : I64), decode w = .ok (.arb m1) ↔ w.val = 9 + 100 * m1.digit) ∧
  ∀ w : I64, 0 ≤ w.val → w.val.toNat % 100 = 9 →
    (w.val.toNat / 1000 ≠ 0 → decode w = .error .reservedDigit) ∧
    (w.val.toNat / 1000 = 0 → 2 < digit 2 w.val.toNat → decode w = .error .badMode)

/-- R103: HALT sets `halted`, advances by 1 and ends the HostRun with `Halted`; at `pc = 2^63 - 1` it is PC_OVF; 99 is the
only word that decodes to it. -/
def Obligations.HaltRule : Prop :=
  (∀ (s : State) (npc : I64), npc.val = s.pc.val + 1 →
    exec .halt s = .next { s with
      halted := true
      pc := npc
      running := false
      results := s.results ++ [.halted] }) ∧
  (∀ s : State, s.pc.val = maxI → exec .halt s = .next (s.takeFault .pcOvf)) ∧
  ∀ w : I64, (decode w = .ok .halt ↔ w.val = 99) ∧ (w.val = -99 → decode w = .error .negWord) ∧
    (0 ≤ w.val → w.val.toNat % 100 = 99 → w.val ≠ 99 → decode w = .error .reservedDigit)

/-- R88: where the exact result of ADD, MUL or ARB does not fit, the instruction takes ALU_OVF and writes nothing else; the
boundary examples of the rule. -/
def Obligations.OverflowIsChecked : Prop :=
  (∀ (m1 m2 m3 : Mode) (s : State), 0 ≤ s.pc.val → resolutionFault s (.add m1 m2 m3) = none →
    ¬ Fits ((operand s 1 m1).val + (operand s 2 m2).val) →
    exec (.add m1 m2 m3) s = .next { s with
      fault := some ⟨.aluOvf, s.pc⟩, running := false, results := s.results ++ [.fault ⟨.aluOvf, s.pc⟩] }) ∧
  (∀ (m1 m2 m3 : Mode) (s : State), 0 ≤ s.pc.val → resolutionFault s (.mul m1 m2 m3) = none →
    ¬ Fits ((operand s 1 m1).val * (operand s 2 m2).val) →
    exec (.mul m1 m2 m3) s = .next { s with
      fault := some ⟨.aluOvf, s.pc⟩, running := false, results := s.results ++ [.fault ⟨.aluOvf, s.pc⟩] }) ∧
  (∀ (m1 : Mode) (s : State), 0 ≤ s.pc.val → resolutionFault s (.arb m1) = none →
    ¬ Fits (s.rb.val + (operand s 1 m1).val) →
    exec (.arb m1) s = .next { s with
      fault := some ⟨.aluOvf, s.pc⟩, running := false, results := s.results ++ [.fault ⟨.aluOvf, s.pc⟩] }) ∧
  (∀ a b : I64,
    (a.val = maxI ∧ b.val = 1 → addValue a b = .error .aluOvf) ∧
    (a.val = minI ∧ b.val = -1 → addValue a b = .error .aluOvf ∧ mulValue a b = .error .aluOvf) ∧
    (a.val = 3037000500 ∧ b.val = 3037000500 → mulValue a b = .error .aluOvf) ∧
    (a.val = 4294967296 ∧ b.val = 2147483648 → mulValue a b = .error .aluOvf) ∧
    (a.val = maxI ∧ b.val = minI → ∃ v, addValue a b = .ok v ∧ v.val = -1) ∧
    (a.val = 3037000499 ∧ b.val = 3037000499 → ∃ v, mulValue a b = .ok v ∧ v.val = 9223372030926249001) ∧
    (a.val = -4294967296 ∧ b.val = 2147483648 → ∃ v, mulValue a b = .ok v ∧ v.val = minI) ∧
    (a.val = maxI ∧ b.val = 1 → mulValue a b = .ok a))

/-- R99: where LT or EQ completes, its target's cell holds exactly 1 or exactly 0. -/
def Obligations.ComparisonGivesOneOrZero : Prop :=
  ∀ (m1 m2 m3 : Mode) (s t : State) (a : Nat), s.fault = none →
    (exec (.lt m1 m2 m3) s = .next t ∨ exec (.eq m1 m2 m3) s = .next t) → t.fault = none →
    resolveWrite s 3 m3 = .ok a → t.mem.read a = I64.one ∨ t.mem.read a = I64.zero

/-- R95: a taken jump writes its target into `pc` unchecked; a negative target is PC_NEG at the next fetch, with `fpc` that
target; at any other target the next fetch decodes whatever the cell there holds, so a cell that memory does not list is
BAD_OPCODE. -/
def Obligations.JumpTargetIsCheckedAtNextFetch : Prop :=
  ∀ (m1 m2 : Mode) (s : State) (i : Instr), s.phase = .running → 0 ≤ s.pc.val → resolutionFault s i = none →
    (i = .jnz m1 m2 ∧ (operand s 1 m1).val ≠ 0 ∨ i = .jz m1 m2 ∧ (operand s 1 m1).val = 0) →
    ∃ t, exec i s = .next t ∧ t = { s with pc := operand s 2 m2 } ∧
      (t.pc.val < 0 → step t = .next { t with
        fault := some ⟨.pcNeg, operand s 2 m2⟩
        running := false
        results := t.results ++ [.fault ⟨.pcNeg, operand s 2 m2⟩] }) ∧
      (0 ≤ t.pc.val → t.fetchDecode = decode (s.mem.read (operand s 2 m2).val.toNat)) ∧
      (0 ≤ t.pc.val → (∀ e ∈ t.mem, e.1 ≠ t.pc.val.toNat) → step t = .next (t.takeFault .badOpcode))

/-! ### Frames: what an instruction leaves unchanged when it answers a next state -/

/-- The frame of ADD, MUL, LT and EQ: `rb`, the FIFO, `halted`, the parameters and the host's list of transactions stay;
every cell but the target's stays, and the extent but for the growth that store may cause; either a fault was taken, which
changes nothing else, or the fault record, `running` and the results stay. -/
def Obligations.StoringInstructionsFrame : Prop :=
  ∀ (m1 m2 m3 : Mode) (s t : State),
    (exec (.add m1 m2 m3) s = .next t ∨ exec (.mul m1 m2 m3) s = .next t ∨
      exec (.lt m1 m2 m3) s = .next t ∨ exec (.eq m1 m2 m3) s = .next t) →
    t.cfg = s.cfg ∧ t.rb = s.rb ∧ t.inq = s.inq ∧ t.halted = s.halted ∧ t.pending = s.pending ∧
    (∀ a, resolveWrite s 3 m3 = .ok a →
      (t.extent = s.extent ∨ t.extent = max s.extent (a + 1)) ∧ ∀ b, b ≠ a → t.mem.read b = s.mem.read b) ∧
    (∀ c, resolveWrite s 3 m3 = .error c → t.extent = s.extent ∧ ∀ b, t.mem.read b = s.mem.read b) ∧
    ((∃ c, t = s.takeFault c) ∨ t.fault = s.fault ∧ t.running = s.running ∧ t.results = s.results)

/-- The frame of IN: as for a storing instruction, but the FIFO loses at most its oldest value, and the HostRun may end with
`NeedInput`. -/
def Obligations.InFrame : Prop :=
  ∀ (m1 : Mode) (s t : State), exec (.inp m1) s = .next t →
    t.cfg = s.cfg ∧ t.rb = s.rb ∧ t.halted = s.halted ∧ t.pending = s.pending ∧
    (t.inq = s.inq ∨ ∃ v, s.inq = v :: t.inq) ∧
    (∀ a, resolveWrite s 1 m1 = .ok a →
      (t.extent = s.extent ∨ t.extent = max s.extent (a + 1)) ∧ ∀ b, b ≠ a → t.mem.read b = s.mem.read b) ∧
    (∀ c, resolveWrite s 1 m1 = .error c → t.extent = s.extent ∧ ∀ b, t.mem.read b = s.mem.read b) ∧
    ((∃ c, t = s.takeFault c) ∨
      t.fault = s.fault ∧ (t.results = s.results ∧ t.running = s.running ∨
        t.results = s.results ++ [.needInput] ∧ t.running = false))

/-- The frame of JNZ and JZ, which store nothing: every cell, the extent, `rb`, the FIFO, `halted`, the parameters and the
host's list of transactions stay; either a fault was taken, which changes nothing else, or the fault record, `running` and
the results stay. -/
def Obligations.JumpFrame : Prop :=
  ∀ (m1 m2 : Mode) (s t : State), (exec (.jnz m1 m2) s = .next t ∨ exec (.jz m1 m2) s = .next t) →
    (∀ b, t.mem.read b = s.mem.read b) ∧ t.extent = s.extent ∧
    t.cfg = s.cfg ∧ t.rb = s.rb ∧ t.inq = s.inq ∧ t.halted = s.halted ∧ t.pending = s.pending ∧
    ((∃ c, t = s.takeFault c) ∨ t.fault = s.fault ∧ t.running = s.running ∧ t.results = s.results)

/-- The frame of OUT, which stores nothing: as for a jump, but where no fault was taken the HostRun has ended with one
`Output`. -/
def Obligations.OutFrame : Prop :=
  ∀ (m1 : Mode) (s t : State), exec (.out m1) s = .next t →
    (∀ b, t.mem.read b = s.mem.read b) ∧ t.extent = s.extent ∧
    t.cfg = s.cfg ∧ t.rb = s.rb ∧ t.inq = s.inq ∧ t.halted = s.halted ∧ t.pending = s.pending ∧
    ((∃ c, t = s.takeFault c) ∨
      t.fault = s.fault ∧ t.running = false ∧ ∃ a, t.results = s.results ++ [.output a])

/-- The frame of ARB: everything but `rb` and `pc` stays, or a fault was taken, which changes neither. -/
def Obligations.ArbFrame : Prop :=
  ∀ (m1 : Mode) (s t : State), exec (.arb m1) s = .next t →
    (∀ b, t.mem.read b = s.mem.read b) ∧ t.extent = s.extent ∧ t.cfg = s.cfg ∧ t.inq = s.inq ∧
    t.halted = s.halted ∧ t.pending = s.pending ∧
    ((∃ c, t = s.takeFault c) ∨ t.fault = s.fault ∧ t.running = s.running ∧ t.results = s.results)

/-- The frame of HALT: memory, the extent, `rb`, the FIFO, the parameters and the host's list of transactions stay; either a
fault was taken, which changes nothing else, or the fault record stays, `halted` is set and the HostRun has ended with
`Halted`. -/
def Obligations.HaltFrame : Prop :=
  ∀ s t : State, exec .halt s = .next t →
    (∀ b, t.mem.read b = s.mem.read b) ∧ t.extent = s.extent ∧ t.cfg = s.cfg ∧ t.rb = s.rb ∧ t.inq = s.inq ∧
    t.pending = s.pending ∧
    ((∃ c, t = s.takeFault c) ∨
      t.fault = s.fault ∧ t.halted = true ∧ t.running = false ∧ t.results = s.results ++ [.halted])

/-! ### The step of the engine -/

/-- R74, R75: in phase RUNNING, at a non-negative `pc` whose cell decodes to `i`, a step is `exec` of `i` at that state; no
field is changed around it, and `i` is well-formed. -/
def Obligations.StepRunsDecodedInstruction : Prop :=
  ∀ (s : State) (i : Instr), s.phase = .running → 0 ≤ s.pc.val → decode (s.mem.read s.pc.val.toNat) = .ok i →
    step s = exec i s ∧ i.wf = true

/-- R81: in phase RUNNING a step of the machine is one iteration of the loop of `HostRun` around the pseudocode of `Step`. -/
def Obligations.StepFollowsPseudocode : Prop :=
  ∀ s : State, s.phase = .running → step s = .next (Pseudocode.settle s (Pseudocode.step s))

/-- R113: a HostRun in progress ends within a given number of steps exactly if the loop of the pseudocode does, and in the
same state. -/
def Obligations.HostRunFollowsPseudocode : Prop :=
  ∀ (fuel : Nat) (s : State), s.phase = .running → runToEnd fuel s = Pseudocode.hostRunLoop fuel s

/-- Every step answers a next state. That `Step` terminates is R84; that its faults are next states too is the model's
choice (notes/assumptions/3.md, where R115 advises a fault outcome), and so is the step of a CORE for which the host has no
transaction (notes/assumptions/5.md). -/
def Obligations.StepAlwaysAnswers : Prop :=
  ∀ s : State, ∃ t, step s = .next t

/-- R80: a step of the engine continues the HostRun without a result, or yields `Output` at an OUT with `pc` already
advanced, or `NeedInput` at an IN that finds the FIFO empty, with nothing else changed, or `Halted` at a HALT, or takes a
fault. -/
def Obligations.EngineYieldsAtThreePoints : Prop :=
  ∀ s t : State, s.phase = .running → step s = .next t →
    (t.phase = .running ∧ t.results = s.results ∧ s.fetchDecode ≠ .ok .halt ∧
      (∀ m1, s.fetchDecode ≠ .ok (.out m1)) ∧ (s.inq = [] → ∀ m1, s.fetchDecode ≠ .ok (.inp m1))) ∨
    (∃ m1 a, s.fetchDecode = .ok (.out m1) ∧ t.phase = .suspended ∧ t.results = s.results ++ [.output a] ∧
      t.pc.val = s.pc.val + 2) ∨
    (∃ m1, s.fetchDecode = .ok (.inp m1) ∧ s.inq = [] ∧ t.phase = .suspended ∧
      t = { s with running := false, results := s.results ++ [.needInput] }) ∨
    (s.fetchDecode = .ok .halt ∧ t.phase = .halted ∧ t.results = s.results ++ [.halted]) ∨
    t.phase = .faulted

/-- R131: when an instruction raises a fault the record gets the code and the `pc` of the instruction, the HostRun ends with
the fault indication, the phase is FAULTED and nothing else changes. -/
def Obligations.FaultEntryIsPrecise : Prop :=
  ∀ s t : State, s.phase = .running → step s = .next t → t.fault ≠ none →
    t.phase = .faulted ∧ ∃ c, t = { s with
      fault := some ⟨c, s.pc⟩
      running := false
      results := s.results ++ [.fault ⟨c, s.pc⟩] }

/-- R83: an instruction writes at most one memory cell, at most one of `rb` and `halted`, and pops at most one value. -/
def Obligations.OneWritePerInstruction : Prop :=
  ∀ s t : State, s.phase = .running → step s = .next t →
    (t.mem = s.mem ∨ ∃ a v, a < s.cfg.memCapacity ∧ t.mem = s.mem.write a v) ∧
    (t.rb = s.rb ∨ t.halted = s.halted) ∧ (t.inq = s.inq ∨ ∃ v, s.inq = v :: t.inq)

/-- R120, R122: what the engine does to CORE depends neither on the transactions the host will perform nor on the results it
has been given; a step of the engine consumes no transaction. -/
def Obligations.EngineIgnoresHostSide : Prop :=
  ∀ (s t : State) (p : List Transaction) (r : List Answer), s.phase = .running → step s = .next t →
    t.pending = s.pending ∧
    step { s with pending := p, results := r } =
      .next { t with pending := p, results := r ++ t.results.drop s.results.length }

/-- R154: a value already queued behind the oldest one does not influence the engine: pushing more values behind a FIFO that
is not empty commutes with a step of the engine. -/
def Obligations.LaterInputDoesNotChangeStep : Prop :=
  ∀ (s t : State) (vs : List I64), s.phase = .running → s.inq ≠ [] → step s = .next t →
    step { s with inq := s.inq ++ vs } = .next { t with inq := t.inq ++ vs }

/-- R29: the parameters of a CORE are constants: no step changes them. -/
def Obligations.ParametersNeverChange : Prop :=
  ∀ s t : State, step s = .next t → t.cfg = s.cfg

/-- R91: a step of the engine leaves the FIFO or removes its oldest value, and it removes one only at an IN; a turn of the
host leaves it, appends to its tail, or empties it by HostLoad. -/
def Obligations.FifoOrder : Prop :=
  ∀ s t : State, step s = .next t →
    (s.phase = .running → t.inq = s.inq ∨ ∃ m1 v, s.fetchDecode = .ok (.inp m1) ∧ s.inq = v :: t.inq) ∧
    (s.phase ≠ .running →
      (∃ vs, t.inq = s.inq ++ vs) ∨ ∃ program ts, s.pending = .load program :: ts ∧ t.inq = [])

/-! ### Host transactions and phases -/

/-- R30, R105: an accepted HostLoad makes the reset state of the program: its cells, 0 elsewhere, `pc` and `rb` 0, the FIFO
empty, `halted` false, no fault, the extent the length, phase SUSPENDED. -/
def Obligations.HostLoadGivesResetState : Prop :=
  ∀ (s : State) (program : List I64) (ts : List Transaction), s.phase ≠ .running → s.pending = .load program :: ts →
    program.length ≤ s.cfg.memCapacity →
    ∃ t, step s = .next t ∧ (∀ i, t.mem.read i = program.getD i I64.zero) ∧ t.pc.val = 0 ∧ t.rb.val = 0 ∧
      t.inq = [] ∧ t.halted = false ∧ t.fault = none ∧ t.extent = program.length ∧ t.phase = .suspended ∧
      t.cfg = s.cfg ∧ t.pending = ts ∧ t.results = s.results

/-- R107: a HostLoad longer than `MEM_CAPACITY` is refused with no state change; that the host is answered a refusal is the
model's record of it (notes/assumptions/14.md). -/
def Obligations.TooLongHostLoadIsRefused : Prop :=
  ∀ (s : State) (program : List I64) (ts : List Transaction), s.phase ≠ .running → s.pending = .load program :: ts →
    s.cfg.memCapacity < program.length →
    step s = .next { s with pending := ts, results := s.results ++ [.refused] }

/-- R108: HostInput appends its value to the tail of the FIFO and changes nothing else, in phases SUSPENDED and HALTED and
with room in the FIFO. -/
def Obligations.HostInputAppends : Prop :=
  ∀ (s : State) (v : I64) (ts : List Transaction), s.phase ≠ .running → s.pending = .input v :: ts →
    s.fault = none → (∀ n, s.cfg.fifoCapacity = some n → s.inq.length < n) →
    step s = .next { s with pending := ts, inq := s.inq ++ [v] }

/-- R109, R112: HostInput is refused with no state change in phase FAULTED and where the FIFO is full; that the host is
answered a refusal is the model's record of it (notes/assumptions/14.md). -/
def Obligations.HostInputIsRefused : Prop :=
  ∀ (s : State) (v : I64) (ts : List Transaction), s.phase ≠ .running → s.pending = .input v :: ts →
    (s.fault ≠ none → step s = .next { s with pending := ts, results := s.results ++ [.refused] }) ∧
    ∀ n, s.cfg.fifoCapacity = some n → n ≤ s.inq.length →
      step s = .next { s with pending := ts, results := s.results ++ [.refused] }

/-- R110, R112: HostInputMany pushes its values in order; with a finite FIFO the first refusal leaves the earlier values
queued and the later ones not; in phase FAULTED the first value is refused; an empty list changes nothing. Outside RUNNING
a step performs it as the host's next transaction. That a bulk input refused part of the way is answered one refusal is the
model's record of it (notes/assumptions/14.md). -/
def Obligations.HostInputManyKeepsOrder : Prop :=
  ∀ (vs : List I64) (s : State),
    (∀ ts, s.phase ≠ .running → s.pending = .inputMany vs :: ts →
      step s = .next (hostInputMany vs { s with pending := ts })) ∧
    (s.fault = none → s.cfg.fifoCapacity = none → hostInputMany vs s = { s with inq := s.inq ++ vs }) ∧
    (∀ n, s.fault = none → s.cfg.fifoCapacity = some n → s.inq.length ≤ n →
      hostInputMany vs s = { s with
        inq := s.inq ++ vs.take (n - s.inq.length)
        results := if s.inq.length + vs.length ≤ n then s.results else s.results ++ [.refused] }) ∧
    (s.fault ≠ none →
      hostInputMany vs s = { s with results := if vs = [] then s.results else s.results ++ [.refused] })

/-- R111: HostInputAscii is HostInputMany of the code points of the characters in order, as a step outside RUNNING performs
it too, so with an unbounded FIFO and no fault it queues those and nothing else. -/
def Obligations.HostInputAsciiQueuesCodePoints : Prop :=
  (∀ (text : List Char) (vs : List I64) (s : State), vs.map I64.val = text.map (fun c => (c.toNat : Int)) →
    hostInputAscii text s = hostInputMany vs s ∧
    ∀ ts, s.phase ≠ .running → s.pending = .inputAscii text :: ts →
      step s = step { s with pending := .inputMany vs :: ts } ∧
      step s = .next (hostInputMany vs { s with pending := ts })) ∧
  ∀ (text : List Char) (s : State), s.fault = none → s.cfg.fifoCapacity = none →
    (hostInputAscii text s).inq.map I64.val = s.inq.map I64.val ++ text.map (fun c => (c.toNat : Int)) ∧
    hostInputAscii text s = { s with inq := (hostInputAscii text s).inq }

/-- R113 to R115: HostRun starts the engine in phase SUSPENDED, returns `Halted` with no side effects in phase HALTED and is
refused in phase FAULTED, where the answer recorded is the model's (notes/assumptions/14.md). -/
def Obligations.HostRunByPhase : Prop :=
  ∀ (s : State) (ts : List Transaction), s.pending = .run :: ts →
    (s.phase = .suspended → step s = .next { s with pending := ts, running := true }) ∧
    (s.phase = .halted → step s = .next { s with pending := ts, results := s.results ++ [.halted] }) ∧
    (s.phase = .faulted → step s = .next { s with pending := ts, results := s.results ++ [.refused] })

/-- R120, R144: between two transactions the state does not change. -/
def Obligations.NothingChangesBetweenTransactions : Prop :=
  ∀ s : State, s.phase ≠ .running → s.pending = [] → step s = .next s

/-- R104, R114: once HALTED, only an accepted HostLoad leaves the phase; nothing of CORE changes but values appended to the
FIFO, and every HostRun answers `Halted`. R23: only HALT sets the flag. -/
def Obligations.HaltIsPermanent : Prop :=
  (∀ s t : State, s.phase = .halted → step s = .next t →
    (∃ program ts, s.pending = .load program :: ts ∧ program.length ≤ s.cfg.memCapacity) ∨
    t.phase = .halted ∧ t.mem = s.mem ∧ t.extent = s.extent ∧ t.pc = s.pc ∧ t.rb = s.rb ∧
      (∃ vs, t.inq = s.inq ++ vs) ∧
      (∀ ts, s.pending = .run :: ts → t.inq = s.inq ∧ t.results = s.results ++ [.halted])) ∧
  ∀ s t : State, step s = .next t → s.halted = false → t.halted = true → s.fetchDecode = .ok .halt

/-- R133: once FAULTED, only an accepted HostLoad clears the record; under every other transaction and between them nothing
of CORE changes, so no instruction is executed. -/
def Obligations.FaultIsSticky : Prop :=
  ∀ s t : State, s.phase = .faulted → step s = .next t →
    (∃ program ts, s.pending = .load program :: ts ∧ program.length ≤ s.cfg.memCapacity) ∨
    t.phase = .faulted ∧ t.fault = s.fault ∧ t.mem = s.mem ∧ t.extent = s.extent ∧ t.pc = s.pc ∧ t.rb = s.rb ∧
      t.inq = s.inq ∧ t.halted = s.halted

/-- R92: after `NeedInput` the state is that before the IN, so the next HostRun executes the same IN again; with the FIFO
still empty it answers `NeedInput` again, with no other change. -/
def Obligations.StarvedInRetries : Prop :=
  ∀ (m1 : Mode) (s : State) (ts : List Transaction), s.phase = .running → s.fetchDecode = .ok (.inp m1) →
    resolutionFault s (.inp m1) = none → s.inq = [] → s.pending = .run :: ts →
    ∃ t u, step s = .next t ∧ t = { s with running := false, results := s.results ++ [.needInput] } ∧
      step t = .next u ∧ u = { s with pending := ts, results := s.results ++ [.needInput] } ∧
      u.fetchDecode = .ok (.inp m1) ∧
      step u = .next { s with
        pending := ts, running := false, results := s.results ++ [.needInput, .needInput] }

/-- R113, R115, R116 to R118: a HostRun that ends has answered the host exactly once, with `Output` or `NeedInput` in phase
SUSPENDED, with `Halted` in phase HALTED, or with the fault that is recorded in phase FAULTED; it is never a refusal, no
HostRun is in progress any more, and no transaction was consumed. The answer is read off `results` and the end off `running`,
which are the model's own fields (notes/assumptions/6.md, 4.md). -/
def Obligations.HostRunEndsWithOneResult : Prop :=
  ∀ (n : Nat) (s t : State), s.phase = .running → runToEnd n s = some t →
    t.running = false ∧ t.pending = s.pending ∧
    ∃ r, t.results = s.results ++ [r] ∧
      match r with
      | .output _ | .needInput => t.phase = .suspended
      | .halted => t.phase = .halted
      | .fault f => t.phase = .faulted ∧ t.fault = some f
      | .refused => False

/-! ### The invariant -/

/-- Every step keeps the invariant, from every state that has it. -/
def Obligations.StepKeepsInvariant : Prop :=
  ∀ s t : State, Inv s → step s = .next t → Inv t

/-- The state after reset, the HostLoad of the empty program (notes/assumptions/7.md), has the invariant. -/
def Obligations.ResetHasInvariant : Prop :=
  Inv State.reset

/-- R30, for the empty program the model resets with (its own choice, notes/assumptions/7.md): every cell reads 0, `pc` and
`rb` are 0, the FIFO is empty, CORE is neither halted nor faulted, the extent is 0 and the phase is SUSPENDED. -/
def Obligations.ResetStateValues : Prop :=
  (∀ a, State.reset.mem.read a = I64.zero) ∧ State.reset.pc.val = 0 ∧ State.reset.rb.val = 0 ∧
  State.reset.inq = [] ∧ State.reset.halted = false ∧ State.reset.fault = none ∧ State.reset.extent = 0 ∧
  State.reset.phase = .suspended
end

