-- ==== Sys2Proof/Laws/Memory.lean ====
section
/-! SUPPORT. The laws of the cell memory: what a cell reads after a write and after HostLoad, and that every operation keeps
the canonical form. -/

namespace Sys2Proof.Machine

@[simp] theorem Memory.read_nil (a : Nat) : Memory.read [] a = I64.zero := rfl

theorem Memory.read_cons (k : Nat) (v : I64) (m : Memory) (a : Nat) :
    Memory.read ((k, v) :: m) a = if k = a then v else Memory.read m a := rfl

/-- A cell that no pair lists reads 0 (R35). -/
theorem Memory.read_unlisted {m : Memory} {a : Nat} (h : ∀ e ∈ m, e.1 ≠ a) : Memory.read m a = I64.zero := by
  induction m with
  | nil => rfl
  | cons e m ih =>
    obtain ⟨k, v⟩ := e
    rw [Memory.read_cons, if_neg (h (k, v) (by simp))]
    exact ih fun e he => h e (by simp [he])

theorem Memory.read_filter_same (m : Memory) (a : Nat) :
    Memory.read (m.filter (fun e => e.1 ≠ a)) a = I64.zero :=
  Memory.read_unlisted fun e he => by simpa using (List.mem_filter.mp he).2

theorem Memory.read_filter_other (m : Memory) {a b : Nat} (h : b ≠ a) :
    Memory.read (m.filter (fun e => e.1 ≠ a)) b = Memory.read m b := by
  induction m with
  | nil => rfl
  | cons e m ih =>
    obtain ⟨k, v⟩ := e
    by_cases hk : k = a
    · have : k ≠ b := fun hb => h (hb ▸ hk)
      rw [List.filter_cons_of_neg (by simp [hk]), ih, Memory.read_cons, if_neg this]
    · rw [List.filter_cons_of_pos (by simp [hk]), Memory.read_cons, Memory.read_cons, ih]

theorem Memory.read_insert_same (a : Nat) (v : I64) {m : Memory} (h : ∀ e ∈ m, e.1 ≠ a) :
    Memory.read (Memory.insert a v m) a = v := by
  induction m with
  | nil => simp [Memory.insert, Memory.read_cons]
  | cons e m ih =>
    obtain ⟨k, w⟩ := e
    have hk : k ≠ a := h (k, w) (by simp)
    unfold Memory.insert
    split
    · simp [Memory.read_cons]
    · rw [Memory.read_cons, if_neg hk]
      exact ih fun e he => h e (by simp [he])

theorem Memory.read_insert_other {a b : Nat} (v : I64) (m : Memory) (h : b ≠ a) :
    Memory.read (Memory.insert a v m) b = Memory.read m b := by
  induction m with
  | nil => simp [Memory.insert, Memory.read_cons, h.symm]
  | cons e m ih =>
    obtain ⟨k, w⟩ := e
    unfold Memory.insert
    split
    · simp [Memory.read_cons, h.symm]
    · rw [Memory.read_cons, Memory.read_cons, ih]

/-- A read of the written cell gives the value written (R36), in every memory, canonical or not. -/
@[simp] theorem Memory.read_write_same (m : Memory) (a : Nat) (v : I64) : (Memory.write m a v).read a = v := by
  unfold Memory.write
  split
  · next h => rw [Memory.read_filter_same, h]
  · exact Memory.read_insert_same a v fun e he => by simpa using (List.mem_filter.mp he).2

/-- A write leaves every other cell as it was (R36). -/
theorem Memory.read_write_other (m : Memory) {a b : Nat} (v : I64) (h : b ≠ a) :
    (Memory.write m a v).read b = m.read b := by
  unfold Memory.write
  split
  · exact Memory.read_filter_other m h
  · rw [Memory.read_insert_other v _ h, Memory.read_filter_other m h]

theorem Memory.mem_insert {a : Nat} {v : I64} {m : Memory} {e : Nat × I64} :
    e ∈ Memory.insert a v m ↔ e = (a, v) ∨ e ∈ m := by
  induction m with
  | nil => simp [Memory.insert]
  | cons x m ih =>
    obtain ⟨k, w⟩ := x
    unfold Memory.insert
    split
    · simp
    · simp only [List.mem_cons, ih]; tauto

/-- A pair listed after a write is the pair written or was listed before. -/
theorem Memory.mem_write {m : Memory} {a : Nat} {v : I64} {e : Nat × I64} (h : e ∈ Memory.write m a v) :
    (e = (a, v) ∧ v ≠ I64.zero) ∨ e ∈ m := by
  unfold Memory.write at h
  split at h
  · exact .inr (List.mem_filter.mp h).1
  · next hv =>
    rcases Memory.mem_insert.mp h with rfl | h
    · exact .inl ⟨rfl, hv⟩
    · exact .inr (List.mem_filter.mp h).1

theorem Memory.sorted_insert {a : Nat} {v : I64} {m : Memory} (hm : m.Pairwise (fun x y => x.1 < y.1))
    (h : ∀ e ∈ m, e.1 ≠ a) : (Memory.insert a v m).Pairwise (fun x y => x.1 < y.1) := by
  induction m with
  | nil => simp [Memory.insert]
  | cons x m ih =>
    obtain ⟨k, w⟩ := x
    obtain ⟨hx, hm⟩ := List.pairwise_cons.mp hm
    have hk : k ≠ a := h (k, w) (by simp)
    unfold Memory.insert
    split
    · next hlt =>
      refine List.pairwise_cons.mpr ⟨fun e he => ?_, List.pairwise_cons.mpr ⟨hx, hm⟩⟩
      rcases List.mem_cons.mp he with rfl | he
      · exact hlt
      · exact Nat.lt_trans hlt (hx e he)
    · refine List.pairwise_cons.mpr ⟨fun e he => ?_, ih hm fun e he => h e (by simp [he])⟩
      rcases Memory.mem_insert.mp he with rfl | he
      · show k < a; omega
      · exact hx e he

/-- A write to a cell of the address space keeps the canonical form. -/
theorem Memory.wf_write {m : Memory} (hm : m.wf) {a : Nat} (ha : a < 9223372036854775808) (v : I64) :
    (Memory.write m a v).wf := by
  refine ⟨?_, fun e he => ?_⟩
  · have hf := hm.1.filter (fun e => decide (e.1 ≠ a))
    unfold Memory.write
    split
    · exact hf
    · exact Memory.sorted_insert hf fun e he => by simpa using (List.mem_filter.mp he).2
  · rcases Memory.mem_write he with ⟨rfl, hv⟩ | he
    · exact ⟨hv, ha⟩
    · exact hm.2 e he

theorem Memory.mem_ofCells {vs : List I64} {k : Nat} {e : Nat × I64} (h : e ∈ Memory.ofCells k vs) :
    k ≤ e.1 ∧ e.1 < k + vs.length ∧ e.2 ≠ I64.zero := by
  induction vs generalizing k with
  | nil => simp [Memory.ofCells] at h
  | cons v vs ih =>
    unfold Memory.ofCells at h
    split at h
    · have := ih h; simp only [List.length_cons]; exact ⟨by omega, by omega, this.2.2⟩
    · next hv =>
      rcases List.mem_cons.mp h with rfl | h
      · exact ⟨Nat.le_refl _, by simp, hv⟩
      · have := ih h; simp only [List.length_cons]; exact ⟨by omega, by omega, this.2.2⟩

theorem Memory.sorted_ofCells (k : Nat) (vs : List I64) :
    (Memory.ofCells k vs).Pairwise (fun x y => x.1 < y.1) := by
  induction vs generalizing k with
  | nil => exact List.Pairwise.nil
  | cons v vs ih =>
    unfold Memory.ofCells
    split
    · exact ih _
    · exact List.pairwise_cons.mpr ⟨fun e he => (Memory.mem_ofCells he).1, ih _⟩

/-- HostLoad of a program that fits the address space gives a canonical memory. -/
theorem Memory.wf_ofProgram {program : List I64} (h : program.length ≤ 9223372036854775808) :
    (Memory.ofProgram program).wf :=
  ⟨Memory.sorted_ofCells 0 program, fun e he => by
    have := Memory.mem_ofCells he; exact ⟨this.2.2, by omega⟩⟩

theorem Memory.read_ofCells (vs : List I64) (k a : Nat) :
    (Memory.ofCells k vs).read a = if a < k then I64.zero else vs.getD (a - k) I64.zero := by
  induction vs generalizing k with
  | nil => simp [Memory.ofCells]
  | cons v vs ih =>
    unfold Memory.ofCells
    have key : ∀ h : k < a, vs.getD (a - (k + 1)) I64.zero = (v :: vs).getD (a - k) I64.zero := fun h => by
      obtain ⟨d, rfl⟩ := Nat.exists_eq_add_of_lt h
      rw [show k + d + 1 - k = d + 1 by omega, show k + d + 1 - (k + 1) = d by omega]; rfl
    rcases Nat.lt_trichotomy a k with h | rfl | h
    · split <;> simp [Memory.read_cons, ih, Nat.lt_succ_of_lt h, Nat.ne_of_gt h]
    · split
      · next hv => simp [ih, hv]
      · simp [Memory.read_cons]
    · have h1 : ¬ a < k + 1 := by omega
      have h2 : ¬ a < k := by omega
      have h3 : k ≠ a := by omega
      split
      · rw [ih, if_neg h1, key h]
      · rw [Memory.read_cons, if_neg h3, ih, if_neg h1, key h]

/-- After HostLoad cell `i` holds the `i`-th value of the program and every other cell holds 0 (R33). -/
theorem Memory.read_ofProgram (program : List I64) (i : Nat) :
    (Memory.ofProgram program).read i = program.getD i I64.zero := by
  simp [Memory.ofProgram, Memory.read_ofCells]

/-- A store to a cell of the address space keeps the canonical form. -/
theorem State.wf_storeCell {s : State} (hm : s.mem.wf) {a : Nat} (ha : a < 9223372036854775808) (v : I64) :
    (s.storeCell a v).mem.wf := Memory.wf_write hm ha v

/-- Putting cells one after another keeps the canonical form. -/
theorem State.wf_placeCells (cells : List I64) {s : State} (hm : s.mem.wf) (a : Nat) :
    (s.placeCells a cells).mem.wf := by
  induction cells generalizing s a with
  | nil => exact hm
  | cons v vs ih =>
    unfold State.placeCells
    split
    · next ha => exact ih (State.wf_storeCell hm ha v) (a + 1)
    · exact hm

/-- Putting cells at `pc` keeps the canonical form. -/
theorem State.wf_placeAtPc {s : State} (hm : s.mem.wf) (cells : List I64) : (s.placeAtPc cells).mem.wf := by
  unfold State.placeAtPc
  split
  · exact hm
  · exact State.wf_placeCells cells hm _

/-- The memory of the reset state is in canonical form. -/
theorem State.wf_reset : State.reset.mem.wf := by decide

end Sys2Proof.Machine
end

