-- ==== Sys2Proof/Laws/State.lean ====
section
/-! SUPPORT. What each named update of a state does to each field: one lemma per field and update, so that no proof unfolds
a record update. -/

namespace Sys2Proof.Machine

/-! ### `State.setPc` -/

@[simp] theorem State.setPc_cfg (s : State) (v : I64) : (s.setPc v).cfg = s.cfg := rfl

@[simp] theorem State.setPc_mem (s : State) (v : I64) : (s.setPc v).mem = s.mem := rfl

@[simp] theorem State.setPc_extent (s : State) (v : I64) : (s.setPc v).extent = s.extent := rfl

@[simp] theorem State.setPc_pc (s : State) (v : I64) : (s.setPc v).pc = v := rfl

@[simp] theorem State.setPc_rb (s : State) (v : I64) : (s.setPc v).rb = s.rb := rfl

@[simp] theorem State.setPc_inq (s : State) (v : I64) : (s.setPc v).inq = s.inq := rfl

@[simp] theorem State.setPc_halted (s : State) (v : I64) : (s.setPc v).halted = s.halted := rfl

@[simp] theorem State.setPc_fault (s : State) (v : I64) : (s.setPc v).fault = s.fault := rfl

@[simp] theorem State.setPc_running (s : State) (v : I64) : (s.setPc v).running = s.running := rfl

@[simp] theorem State.setPc_pending (s : State) (v : I64) : (s.setPc v).pending = s.pending := rfl

@[simp] theorem State.setPc_results (s : State) (v : I64) : (s.setPc v).results = s.results := rfl

/-! ### `State.setRb` -/

@[simp] theorem State.setRb_cfg (s : State) (v : I64) : (s.setRb v).cfg = s.cfg := rfl

@[simp] theorem State.setRb_mem (s : State) (v : I64) : (s.setRb v).mem = s.mem := rfl

@[simp] theorem State.setRb_extent (s : State) (v : I64) : (s.setRb v).extent = s.extent := rfl

@[simp] theorem State.setRb_pc (s : State) (v : I64) : (s.setRb v).pc = s.pc := rfl

@[simp] theorem State.setRb_rb (s : State) (v : I64) : (s.setRb v).rb = v := rfl

@[simp] theorem State.setRb_inq (s : State) (v : I64) : (s.setRb v).inq = s.inq := rfl

@[simp] theorem State.setRb_halted (s : State) (v : I64) : (s.setRb v).halted = s.halted := rfl

@[simp] theorem State.setRb_fault (s : State) (v : I64) : (s.setRb v).fault = s.fault := rfl

@[simp] theorem State.setRb_running (s : State) (v : I64) : (s.setRb v).running = s.running := rfl

@[simp] theorem State.setRb_pending (s : State) (v : I64) : (s.setRb v).pending = s.pending := rfl

@[simp] theorem State.setRb_results (s : State) (v : I64) : (s.setRb v).results = s.results := rfl

/-! ### `State.setInq` -/

@[simp] theorem State.setInq_cfg (s : State) (q : List I64) : (s.setInq q).cfg = s.cfg := rfl

@[simp] theorem State.setInq_mem (s : State) (q : List I64) : (s.setInq q).mem = s.mem := rfl

@[simp] theorem State.setInq_extent (s : State) (q : List I64) : (s.setInq q).extent = s.extent := rfl

@[simp] theorem State.setInq_pc (s : State) (q : List I64) : (s.setInq q).pc = s.pc := rfl

@[simp] theorem State.setInq_rb (s : State) (q : List I64) : (s.setInq q).rb = s.rb := rfl

@[simp] theorem State.setInq_inq (s : State) (q : List I64) : (s.setInq q).inq = q := rfl

@[simp] theorem State.setInq_halted (s : State) (q : List I64) : (s.setInq q).halted = s.halted := rfl

@[simp] theorem State.setInq_fault (s : State) (q : List I64) : (s.setInq q).fault = s.fault := rfl

@[simp] theorem State.setInq_running (s : State) (q : List I64) : (s.setInq q).running = s.running := rfl

@[simp] theorem State.setInq_pending (s : State) (q : List I64) : (s.setInq q).pending = s.pending := rfl

@[simp] theorem State.setInq_results (s : State) (q : List I64) : (s.setInq q).results = s.results := rfl

/-! ### `State.setHalted` -/

@[simp] theorem State.setHalted_cfg (s : State) : (s.setHalted).cfg = s.cfg := rfl

@[simp] theorem State.setHalted_mem (s : State) : (s.setHalted).mem = s.mem := rfl

@[simp] theorem State.setHalted_extent (s : State) : (s.setHalted).extent = s.extent := rfl

@[simp] theorem State.setHalted_pc (s : State) : (s.setHalted).pc = s.pc := rfl

@[simp] theorem State.setHalted_rb (s : State) : (s.setHalted).rb = s.rb := rfl

@[simp] theorem State.setHalted_inq (s : State) : (s.setHalted).inq = s.inq := rfl

@[simp] theorem State.setHalted_halted (s : State) : (s.setHalted).halted = true := rfl

@[simp] theorem State.setHalted_fault (s : State) : (s.setHalted).fault = s.fault := rfl

@[simp] theorem State.setHalted_running (s : State) : (s.setHalted).running = s.running := rfl

@[simp] theorem State.setHalted_pending (s : State) : (s.setHalted).pending = s.pending := rfl

@[simp] theorem State.setHalted_results (s : State) : (s.setHalted).results = s.results := rfl

/-! ### `State.storeCell` -/

@[simp] theorem State.storeCell_cfg (s : State) (a : Nat) (v : I64) : (s.storeCell a v).cfg = s.cfg := rfl

@[simp] theorem State.storeCell_mem (s : State) (a : Nat) (v : I64) : (s.storeCell a v).mem = s.mem.write a v := rfl

@[simp] theorem State.storeCell_extent (s : State) (a : Nat) (v : I64) : (s.storeCell a v).extent = max s.extent (a + 1) := rfl

@[simp] theorem State.storeCell_pc (s : State) (a : Nat) (v : I64) : (s.storeCell a v).pc = s.pc := rfl

@[simp] theorem State.storeCell_rb (s : State) (a : Nat) (v : I64) : (s.storeCell a v).rb = s.rb := rfl

@[simp] theorem State.storeCell_inq (s : State) (a : Nat) (v : I64) : (s.storeCell a v).inq = s.inq := rfl

@[simp] theorem State.storeCell_halted (s : State) (a : Nat) (v : I64) : (s.storeCell a v).halted = s.halted := rfl

@[simp] theorem State.storeCell_fault (s : State) (a : Nat) (v : I64) : (s.storeCell a v).fault = s.fault := rfl

@[simp] theorem State.storeCell_running (s : State) (a : Nat) (v : I64) : (s.storeCell a v).running = s.running := rfl

@[simp] theorem State.storeCell_pending (s : State) (a : Nat) (v : I64) : (s.storeCell a v).pending = s.pending := rfl

@[simp] theorem State.storeCell_results (s : State) (a : Nat) (v : I64) : (s.storeCell a v).results = s.results := rfl

/-! ### `State.reply` -/

@[simp] theorem State.reply_cfg (s : State) (r : Answer) : (s.reply r).cfg = s.cfg := rfl

@[simp] theorem State.reply_mem (s : State) (r : Answer) : (s.reply r).mem = s.mem := rfl

@[simp] theorem State.reply_extent (s : State) (r : Answer) : (s.reply r).extent = s.extent := rfl

@[simp] theorem State.reply_pc (s : State) (r : Answer) : (s.reply r).pc = s.pc := rfl

@[simp] theorem State.reply_rb (s : State) (r : Answer) : (s.reply r).rb = s.rb := rfl

@[simp] theorem State.reply_inq (s : State) (r : Answer) : (s.reply r).inq = s.inq := rfl

@[simp] theorem State.reply_halted (s : State) (r : Answer) : (s.reply r).halted = s.halted := rfl

@[simp] theorem State.reply_fault (s : State) (r : Answer) : (s.reply r).fault = s.fault := rfl

@[simp] theorem State.reply_running (s : State) (r : Answer) : (s.reply r).running = s.running := rfl

@[simp] theorem State.reply_pending (s : State) (r : Answer) : (s.reply r).pending = s.pending := rfl

@[simp] theorem State.reply_results (s : State) (r : Answer) : (s.reply r).results = s.results ++ [r] := rfl

/-! ### `State.yieldResult` -/

@[simp] theorem State.yieldResult_cfg (s : State) (r : Answer) : (s.yieldResult r).cfg = s.cfg := rfl

@[simp] theorem State.yieldResult_mem (s : State) (r : Answer) : (s.yieldResult r).mem = s.mem := rfl

@[simp] theorem State.yieldResult_extent (s : State) (r : Answer) : (s.yieldResult r).extent = s.extent := rfl

@[simp] theorem State.yieldResult_pc (s : State) (r : Answer) : (s.yieldResult r).pc = s.pc := rfl

@[simp] theorem State.yieldResult_rb (s : State) (r : Answer) : (s.yieldResult r).rb = s.rb := rfl

@[simp] theorem State.yieldResult_inq (s : State) (r : Answer) : (s.yieldResult r).inq = s.inq := rfl

@[simp] theorem State.yieldResult_halted (s : State) (r : Answer) : (s.yieldResult r).halted = s.halted := rfl

@[simp] theorem State.yieldResult_fault (s : State) (r : Answer) : (s.yieldResult r).fault = s.fault := rfl

@[simp] theorem State.yieldResult_running (s : State) (r : Answer) : (s.yieldResult r).running = false := rfl

@[simp] theorem State.yieldResult_pending (s : State) (r : Answer) : (s.yieldResult r).pending = s.pending := rfl

@[simp] theorem State.yieldResult_results (s : State) (r : Answer) : (s.yieldResult r).results = s.results ++ [r] := rfl

/-! ### `State.takeFault` -/

@[simp] theorem State.takeFault_cfg (s : State) (c : FaultCode) : (s.takeFault c).cfg = s.cfg := rfl

@[simp] theorem State.takeFault_mem (s : State) (c : FaultCode) : (s.takeFault c).mem = s.mem := rfl

@[simp] theorem State.takeFault_extent (s : State) (c : FaultCode) : (s.takeFault c).extent = s.extent := rfl

@[simp] theorem State.takeFault_pc (s : State) (c : FaultCode) : (s.takeFault c).pc = s.pc := rfl

@[simp] theorem State.takeFault_rb (s : State) (c : FaultCode) : (s.takeFault c).rb = s.rb := rfl

@[simp] theorem State.takeFault_inq (s : State) (c : FaultCode) : (s.takeFault c).inq = s.inq := rfl

@[simp] theorem State.takeFault_halted (s : State) (c : FaultCode) : (s.takeFault c).halted = s.halted := rfl

@[simp] theorem State.takeFault_fault (s : State) (c : FaultCode) : (s.takeFault c).fault = some ⟨c, s.pc⟩ := rfl

@[simp] theorem State.takeFault_running (s : State) (c : FaultCode) : (s.takeFault c).running = false := rfl

@[simp] theorem State.takeFault_pending (s : State) (c : FaultCode) : (s.takeFault c).pending = s.pending := rfl

@[simp] theorem State.takeFault_results (s : State) (c : FaultCode) : (s.takeFault c).results = s.results ++ [.fault ⟨c, s.pc⟩] := rfl

end Sys2Proof.Machine
end

