-- ==== Sys2Proof/Laws/Operands.lean ====
section
/-! SUPPORT. One lemma for each shared operation of an instruction's stages, saying everything it can do: a check, the
checked narrowing, the resolution of a parameter, the next `pc`, and the two shared instruction shapes. -/

namespace Sys2Proof.Machine

open Sys2Proof.Safety

/-! ### A check -/

@[simp] theorem State.check_ok {α : Type} (s : State) (a : α) (k : α → Host.Outcome State Fault Refusal) :
    s.check (.ok a) k = k a := rfl

@[simp] theorem State.check_error {α : Type} (s : State) (c : FaultCode) (k : α → Host.Outcome State Fault Refusal) :
    s.check (.error c) k = .next (s.takeFault c) := rfl

/-- What a check leads to: the fault it raises, or what follows with the value it gives. -/
theorem State.check_cases {α : Type} {s : State} {r : Except FaultCode α} {k : α → Host.Outcome State Fault Refusal}
    {o : Host.Outcome State Fault Refusal} (h : s.check r k = o) :
    (∃ c, r = .error c ∧ o = .next (s.takeFault c)) ∨ ∃ a, r = .ok a ∧ k a = o := by
  cases r with
  | ok a => exact .inr ⟨a, rfl, h⟩
  | error c => exact .inl ⟨c, rfl, h.symm⟩

/-! ### Checked values -/

theorem narrow_fits {c : FaultCode} {v : Int} (h : Fits v) : narrow c v = .ok ⟨v, h.1, h.2⟩ := dif_pos h

theorem narrow_not_fits {c : FaultCode} {v : Int} (h : ¬ Fits v) : narrow c v = .error c := dif_neg h

/-- A value that is exact is the value `narrow` gives. -/
theorem narrow_of_val {c : FaultCode} {v : Int} {x : I64} (h : x.val = v) : narrow c v = .ok x := by
  subst h; exact narrow_fits x.fits

theorem narrow_ok {c : FaultCode} {v : Int} {x : I64} (h : narrow c v = .ok x) : x.val = v := by
  unfold narrow at h
  split at h
  · injection h with h; rw [← h]
  · cases h

/-! ### Resolution -/

theorem rawOperand_eq {s : State} (hpc : 0 ≤ s.pc.val) (i : Nat) :
    rawOperand s i = if maxI < s.pc.val + i then .error .pcOvf else .ok (rawCell s i) := by
  have h : ¬ s.pc.val + (i : Int) < 0 := by omega
  unfold rawOperand State.load rawCell
  rw [if_neg h]

theorem addressSum_eq {s : State} {i : Nat} {m : Mode} : addressSum s m (rawCell s i) = address s i m := by
  cases m <;> rfl

theorem effectiveAddress_eq {s : State} {i : Nat} {m : Mode} :
    effectiveAddress s m (rawCell s i) =
      if address s i m < 0 then .error .eaNeg
      else if maxI < address s i m then .error .eaOvf
      else .ok (target s i m) := by
  unfold effectiveAddress target
  rw [addressSum_eq]

/-- A read parameter resolves to its operand, or to its first fault (R64 to R68). -/
theorem resolveRead_eq {s : State} (hpc : 0 ≤ s.pc.val) (i : Nat) (m : Mode) :
    resolveRead s i m =
      match paramFault s i .read m with
      | some c => .error c
      | none => .ok (operand s i m) := by
  unfold resolveRead paramFault
  rw [rawOperand_eq hpc]
  by_cases h1 : maxI < s.pc.val + i
  · simp [h1]
  · by_cases hm : m = .immediate
    · simp [h1, hm, readOperand, operand]
    · have hr : readOperand s m (rawCell s i) =
          match effectiveAddress s m (rawCell s i) with
          | .ok a => .ok (s.mem.read a)
          | .error c => .error c := by cases m <;> first | rfl | exact absurd rfl hm
      have ho : operand s i m = s.mem.read (target s i m) := if_neg hm
      simp only [h1, hm, if_false, hr, ho, effectiveAddress_eq, reduceCtorEq, false_and]
      by_cases h2 : address s i m < 0
      · simp only [if_pos h2]
      · by_cases h3 : maxI < address s i m
        · simp only [if_neg h2, if_pos h3]
        · simp only [if_neg h2, if_neg h3]

/-- A write-target resolves to its cell's address, or to its first fault (R62, R64 to R69). -/
theorem resolveWrite_eq {s : State} (hpc : 0 ≤ s.pc.val) (i : Nat) (m : Mode) :
    resolveWrite s i m =
      match paramFault s i .write m with
      | some c => .error c
      | none => .ok (target s i m) := by
  unfold resolveWrite paramFault
  rw [rawOperand_eq hpc]
  by_cases hm : m = .immediate
  · simp [hm]
  · by_cases h1 : maxI < s.pc.val + i
    · simp [hm, h1]
    · simp only [hm, h1, if_false, and_false, writeOperand, effectiveAddress_eq, true_and]
      by_cases h2 : address s i m < 0
      · simp [h2]
      · by_cases h3 : maxI < address s i m
        · simp [h2, h3]
        · have : (s.cfg.memCapacity ≤ target s i m) ↔ ((s.cfg.memCapacity : Int) ≤ address s i m) := by
            unfold target; omega
          simp only [h2, h3, if_false, this]
          split <;> rfl

/-- The next `pc` is `pc + 1 + n`, or PC_OVF (R77). -/
theorem nextPc_eq (s : State) (n : Nat) :
    nextPc s n =
      if h : maxI < s.pc.val + 1 + n then .error .pcOvf
      else .ok ⟨s.pc.val + 1 + n, by have := s.pc.bounds; simp only [minI]; omega, by omega⟩ := by
  have := s.pc.bounds
  unfold nextPc
  split
  · next h => exact narrow_not_fits fun hf => by have := hf.2; omega
  · next h => exact narrow_fits ⟨by simp only [minI]; omega, by omega⟩

/-! ### The shared instruction shapes -/

/-- Everything ADD, MUL, LT and EQ can do: a fault, or the value stored in the target's cell and `pc` advanced. -/
theorem storeBinary_cases {value : I64 → I64 → Except FaultCode I64} {m1 m2 m3 : Mode} {s t : State}
    (h : storeBinary value m1 m2 m3 s = .next t) :
    (∃ c, t = s.takeFault c) ∨
    ∃ a b c npc v, resolveRead s 1 m1 = .ok a ∧ resolveRead s 2 m2 = .ok b ∧ resolveWrite s 3 m3 = .ok c ∧
      nextPc s 3 = .ok npc ∧ value a b = .ok v ∧ t = (s.storeCell c v).setPc npc := by
  unfold storeBinary at h
  obtain ⟨c, -, ho⟩ | ⟨a, ha, h⟩ := State.check_cases h
  · exact .inl ⟨c, by injection ho⟩
  obtain ⟨c, -, ho⟩ | ⟨b, hb, h⟩ := State.check_cases h
  · exact .inl ⟨c, by injection ho⟩
  obtain ⟨c, -, ho⟩ | ⟨d, hd, h⟩ := State.check_cases h
  · exact .inl ⟨c, by injection ho⟩
  obtain ⟨c, -, ho⟩ | ⟨npc, hn, h⟩ := State.check_cases h
  · exact .inl ⟨c, by injection ho⟩
  obtain ⟨c, -, ho⟩ | ⟨v, hv, h⟩ := State.check_cases h
  · exact .inl ⟨c, by injection ho⟩
  exact .inr ⟨a, b, d, npc, v, ha, hb, hd, hn, hv, by injection h with h; exact h.symm⟩

/-- Everything JNZ and JZ can do: a fault, or `pc` written. -/
theorem jumpIf_cases {taken : I64 → Bool} {m1 m2 : Mode} {s t : State} (h : jumpIf taken m1 m2 s = .next t) :
    (∃ c, t = s.takeFault c) ∨
    ∃ a b npc, resolveRead s 1 m1 = .ok a ∧ resolveRead s 2 m2 = .ok b ∧ nextPc s 2 = .ok npc ∧
      t = s.setPc (if taken a then b else npc) := by
  unfold jumpIf at h
  obtain ⟨c, -, ho⟩ | ⟨a, ha, h⟩ := State.check_cases h
  · exact .inl ⟨c, by injection ho⟩
  obtain ⟨c, -, ho⟩ | ⟨b, hb, h⟩ := State.check_cases h
  · exact .inl ⟨c, by injection ho⟩
  obtain ⟨c, -, ho⟩ | ⟨npc, hn, h⟩ := State.check_cases h
  · exact .inl ⟨c, by injection ho⟩
  exact .inr ⟨a, b, npc, ha, hb, hn, by injection h with h; exact h.symm⟩

/-- Everything IN can do: a fault, `NeedInput` with nothing else changed, or the oldest value popped into the target. -/
theorem execInp_cases {m1 : Mode} {s t : State} (h : execInp m1 s = .next t) :
    (∃ c, t = s.takeFault c) ∨ (s.inq = [] ∧ t = s.yieldResult .needInput) ∨
    ∃ a npc v q, resolveWrite s 1 m1 = .ok a ∧ nextPc s 1 = .ok npc ∧ s.inq = v :: q ∧
      t = ((s.setInq q).storeCell a v).setPc npc := by
  unfold execInp at h
  obtain ⟨c, -, ho⟩ | ⟨a, ha, h⟩ := State.check_cases h
  · exact .inl ⟨c, by injection ho⟩
  obtain ⟨c, -, ho⟩ | ⟨npc, hn, h⟩ := State.check_cases h
  · exact .inl ⟨c, by injection ho⟩
  split at h
  · next hq => exact .inr (.inl ⟨hq, by injection h with h; exact h.symm⟩)
  · next v q hq => exact .inr (.inr ⟨a, npc, v, q, ha, hn, hq, by injection h with h; exact h.symm⟩)

/-- Everything OUT can do: a fault, or `Output(a)` with `pc` advanced. -/
theorem execOut_cases {m1 : Mode} {s t : State} (h : execOut m1 s = .next t) :
    (∃ c, t = s.takeFault c) ∨
    ∃ a npc, resolveRead s 1 m1 = .ok a ∧ nextPc s 1 = .ok npc ∧ t = (s.setPc npc).yieldResult (.output a) := by
  unfold execOut at h
  obtain ⟨c, -, ho⟩ | ⟨a, ha, h⟩ := State.check_cases h
  · exact .inl ⟨c, by injection ho⟩
  obtain ⟨c, -, ho⟩ | ⟨npc, hn, h⟩ := State.check_cases h
  · exact .inl ⟨c, by injection ho⟩
  exact .inr ⟨a, npc, ha, hn, by injection h with h; exact h.symm⟩

/-- Everything ARB can do: a fault, or `rb` and `pc` written. -/
theorem execArb_cases {m1 : Mode} {s t : State} (h : execArb m1 s = .next t) :
    (∃ c, t = s.takeFault c) ∨
    ∃ a npc v, resolveRead s 1 m1 = .ok a ∧ nextPc s 1 = .ok npc ∧ arbValue s.rb a = .ok v ∧
      t = (s.setRb v).setPc npc := by
  unfold execArb at h
  obtain ⟨c, -, ho⟩ | ⟨a, ha, h⟩ := State.check_cases h
  · exact .inl ⟨c, by injection ho⟩
  obtain ⟨c, -, ho⟩ | ⟨npc, hn, h⟩ := State.check_cases h
  · exact .inl ⟨c, by injection ho⟩
  obtain ⟨c, -, ho⟩ | ⟨v, hv, h⟩ := State.check_cases h
  · exact .inl ⟨c, by injection ho⟩
  exact .inr ⟨a, npc, v, ha, hn, hv, by injection h with h; exact h.symm⟩

/-- Everything HALT can do: PC_OVF, or `halted` set with `pc` advanced. -/
theorem execHalt_cases {s t : State} (h : execHalt s = .next t) :
    (∃ c, t = s.takeFault c) ∨
    ∃ npc, nextPc s 0 = .ok npc ∧ t = (s.setHalted.setPc npc).yieldResult .halted := by
  unfold execHalt at h
  obtain ⟨c, -, ho⟩ | ⟨npc, hn, h⟩ := State.check_cases h
  · exact .inl ⟨c, by injection ho⟩
  exact .inr ⟨npc, hn, by injection h with h; exact h.symm⟩

end Sys2Proof.Machine
end

