-- ==== Sys2Proof/Laws/PerInstr.lean ====
section
/-! SUPPORT. The family of statements made per instruction: decoding the encoding of a well-formed instruction gives the
instruction back (30_encoding.md R51 to R63). -/

namespace Sys2Proof.Laws.RoundTrip

/-- Decoding the instruction word of a well-formed instruction gives it back. -/
def Statement (i : Instr) : Prop := i.wf = true → decode (encode i) = .ok i

theorem add (m1 m2 m3 : Mode) : Statement (.add m1 m2 m3) := by
  intro h; cases m1 <;> cases m2 <;> cases m3 <;> first | decide | exact absurd h (by decide)

theorem mul (m1 m2 m3 : Mode) : Statement (.mul m1 m2 m3) := by
  intro h; cases m1 <;> cases m2 <;> cases m3 <;> first | decide | exact absurd h (by decide)

theorem inp (m1 : Mode) : Statement (.inp m1) := by
  intro h; cases m1 <;> first | decide | exact absurd h (by decide)

theorem out (m1 : Mode) : Statement (.out m1) := by
  intro _; cases m1 <;> decide

theorem jnz (m1 m2 : Mode) : Statement (.jnz m1 m2) := by
  intro _; cases m1 <;> cases m2 <;> decide

theorem jz (m1 m2 : Mode) : Statement (.jz m1 m2) := by
  intro _; cases m1 <;> cases m2 <;> decide

theorem lt (m1 m2 m3 : Mode) : Statement (.lt m1 m2 m3) := by
  intro h; cases m1 <;> cases m2 <;> cases m3 <;> first | decide | exact absurd h (by decide)

theorem eq (m1 m2 m3 : Mode) : Statement (.eq m1 m2 m3) := by
  intro h; cases m1 <;> cases m2 <;> cases m3 <;> first | decide | exact absurd h (by decide)

theorem arb (m1 : Mode) : Statement (.arb m1) := by
  intro _; cases m1 <;> decide

theorem halt : Statement .halt := fun _ => by decide

end Sys2Proof.Laws.RoundTrip
end

