-- ==== Sys2Proof/Laws/Step.lean ====
section
/-! SUPPORT. What a step can do, said once: the cases of `exec`, of the engine's step and of the host's turn, which invariants
and frames are derived from. -/

namespace Sys2Proof.Machine

open Sys2Proof.Safety

/-- A write-target that resolves is below `MEM_CAPACITY` (R69). -/
theorem resolveWrite_lt {s : State} {i : Nat} {m : Mode} {a : Nat} (h : resolveWrite s i m = .ok a) :
    a < s.cfg.memCapacity := by
  unfold resolveWrite at h
  split at h
  · cases h
  · split at h
    · unfold writeOperand at h
      split at h
      · split at h
        · cases h
        · next hc => injection h with h; omega
      · cases h
    · cases h

/-- The next `pc` that resolves is `pc + 1 + n` (R77). -/
theorem nextPc_ok {s : State} {n : Nat} {npc : I64} (h : nextPc s n = .ok npc) : npc.val = s.pc.val + 1 + n :=
  narrow_ok h

/-- Everything `exec` can do, by what it writes. -/
theorem exec_cases {i : Instr} {s t : State} (h : exec i s = .next t) :
    (∃ c, t = s.takeFault c) ∨
    (∃ a v npc, a < s.cfg.memCapacity ∧ t = (s.storeCell a v).setPc npc) ∨
    (∃ m1 a v q npc, i = .inp m1 ∧ a < s.cfg.memCapacity ∧ s.inq = v :: q ∧
      t = ((s.setInq q).storeCell a v).setPc npc) ∨
    (∃ m1, i = .inp m1 ∧ s.inq = [] ∧ t = s.yieldResult .needInput) ∨
    (∃ m1 a npc, i = .out m1 ∧ npc.val = s.pc.val + 2 ∧ t = (s.setPc npc).yieldResult (.output a)) ∨
    (∃ npc, t = s.setPc npc) ∨
    (∃ v npc, t = (s.setRb v).setPc npc) ∨
    (∃ npc, i = .halt ∧ t = (s.setHalted.setPc npc).yieldResult .halted) := by
  have store : ∀ {value m1 m2 m3}, storeBinary value m1 m2 m3 s = .next t →
      (∃ c, t = s.takeFault c) ∨ ∃ a v npc, a < s.cfg.memCapacity ∧ t = (s.storeCell a v).setPc npc := fun hs => by
    obtain hf | ⟨_, _, c, npc, v, -, -, hc, -, -, rfl⟩ := storeBinary_cases hs
    · exact .inl hf
    · exact .inr ⟨c, v, npc, resolveWrite_lt hc, rfl⟩
  have jump : ∀ {taken m1 m2}, jumpIf taken m1 m2 s = .next t →
      (∃ c, t = s.takeFault c) ∨ ∃ npc, t = s.setPc npc := fun hs => by
    obtain hf | ⟨_, _, _, -, -, -, rfl⟩ := jumpIf_cases hs
    · exact .inl hf
    · exact .inr ⟨_, rfl⟩
  cases i with
  | add m1 m2 m3 | mul m1 m2 m3 | lt m1 m2 m3 | eq m1 m2 m3 =>
    exact (store h).imp id .inl
  | jnz m1 m2 | jz m1 m2 =>
    exact (jump h).imp id fun hj => .inr (.inr (.inr (.inr (.inl hj))))
  | inp m1 =>
    obtain hf | ⟨hq, rfl⟩ | ⟨a, npc, v, q, ha, -, hq, rfl⟩ := execInp_cases h
    · exact .inl hf
    · exact .inr (.inr (.inr (.inl ⟨m1, rfl, hq, rfl⟩)))
    · exact .inr (.inr (.inl ⟨m1, a, v, q, npc, rfl, resolveWrite_lt ha, hq, rfl⟩))
  | out m1 =>
    obtain hf | ⟨a, npc, -, hn, rfl⟩ := execOut_cases h
    · exact .inl hf
    · exact .inr (.inr (.inr (.inr (.inl ⟨m1, a, npc, rfl, by have := nextPc_ok hn; omega, rfl⟩))))
  | arb m1 =>
    obtain hf | ⟨a, npc, v, -, -, -, rfl⟩ := execArb_cases h
    · exact .inl hf
    · exact .inr (.inr (.inr (.inr (.inr (.inr (.inl ⟨v, npc, rfl⟩))))))
  | halt =>
    obtain hf | ⟨npc, -, rfl⟩ := execHalt_cases h
    · exact .inl hf
    · exact .inr (.inr (.inr (.inr (.inr (.inr (.inr ⟨npc, rfl, rfl⟩))))))

/-- Everything a step of the engine can do: a fault of fetch or decode, or `exec` of the decoded instruction. -/
theorem engineStep_cases {s t : State} (h : engineStep s = .next t) :
    (∃ c, s.fetchDecode = .error c ∧ t = s.takeFault c) ∨ ∃ i, s.fetchDecode = .ok i ∧ exec i s = .next t := by
  obtain ⟨c, hc, ho⟩ | ⟨i, hi, he⟩ := State.check_cases h
  · exact .inl ⟨c, hc, by injection ho⟩
  · exact .inr ⟨i, hi, he⟩

/-- Phase RUNNING means that a HostRun is in progress and neither HALT nor a fault has ended the run (R25). -/
theorem phase_running_iff {s : State} :
    s.phase = .running ↔ s.fault = none ∧ s.halted = false ∧ s.running = true := by
  unfold State.phase
  cases hf : s.fault <;> cases hh : s.halted <;> cases hr : s.running <;> simp

theorem phase_halted_iff {s : State} : s.phase = .halted ↔ s.fault = none ∧ s.halted = true := by
  unfold State.phase
  cases hf : s.fault <;> cases hh : s.halted <;> cases hr : s.running <;> simp

theorem phase_faulted_iff {s : State} : s.phase = .faulted ↔ s.fault ≠ none := by
  unfold State.phase
  cases hf : s.fault <;> cases hh : s.halted <;> cases hr : s.running <;> simp

theorem phase_suspended_iff {s : State} :
    s.phase = .suspended ↔ s.fault = none ∧ s.halted = false ∧ s.running = false := by
  unfold State.phase
  cases hf : s.fault <;> cases hh : s.halted <;> cases hr : s.running <;> simp

/-- In phase RUNNING a step is a step of the engine. -/
theorem step_running {s : State} (h : s.phase = .running) : step s = engineStep s := by
  unfold step; rw [h]

/-- In every other phase a step is a turn of the host. -/
theorem step_not_running {s : State} (h : s.phase ≠ .running) : step s = .next (hostTurn s) := by
  unfold step
  split
  · next h' => exact absurd h' h
  all_goals rfl

/-- Input is accepted exactly if no fault is recorded and the FIFO has room (R109, R112). -/
theorem acceptsInput_iff {s : State} :
    s.acceptsInput = true ↔ s.fault = none ∧ ∀ n, s.cfg.fifoCapacity = some n → s.inq.length < n := by
  unfold State.acceptsInput State.fifoFull
  cases s.cfg.fifoCapacity with
  | none => simp
  | some n => simp

/-- What HostInputMany can do: append a run of values that the FIFO has room for, and perhaps refuse one. -/
theorem hostInputMany_cases (vs : List I64) (s : State) :
    ∃ us, (hostInputMany vs s = { s with inq := s.inq ++ us } ∨
      hostInputMany vs s = { s with inq := s.inq ++ us, results := s.results ++ [.refused] }) ∧
      ∀ n, s.cfg.fifoCapacity = some n → s.inq.length ≤ n → s.inq.length + us.length ≤ n := by
  induction vs generalizing s with
  | nil => exact ⟨[], .inl (by simp [hostInputMany]), fun n _ h => h⟩
  | cons v vs ih =>
    by_cases ha : s.acceptsInput
    · obtain ⟨us, h, hc⟩ := ih (s.push v)
      have hl : (s.push v).inq.length = s.inq.length + 1 := by simp [State.push]
      refine ⟨v :: us, by simpa [hostInputMany, ha, State.push, State.setInq] using h, fun n hn _ => ?_⟩
      have := hc n hn (by have := (acceptsInput_iff.mp ha).2 n hn; omega)
      simp only [List.length_cons]; omega
    · exact ⟨[], .inr (by simp [hostInputMany, ha, State.reply]), fun n _ h => h⟩

/-- Everything a turn of the host can do: nothing, an accepted HostLoad, values appended to the FIFO with perhaps a refusal,
the start of a HostRun, or `Halted` answered once more (R105 to R115). -/
theorem hostTurn_cases (s : State) :
    (s.pending = [] ∧ hostTurn s = s) ∨
    (∃ program ts, s.pending = .load program :: ts ∧ program.length ≤ s.cfg.memCapacity ∧
      hostTurn s = { s with
        mem := Memory.ofProgram program, extent := program.length, pc := I64.zero, rb := I64.zero, inq := [],
        halted := false, fault := none, running := false, pending := ts }) ∨
    (∃ x ts us, s.pending = x :: ts ∧
      (hostTurn s = { s with pending := ts, inq := s.inq ++ us } ∨
        hostTurn s = { s with pending := ts, inq := s.inq ++ us, results := s.results ++ [.refused] }) ∧
      ∀ n, s.cfg.fifoCapacity = some n → s.inq.length ≤ n → s.inq.length + us.length ≤ n) ∨
    (∃ ts, s.pending = .run :: ts ∧ (s.phase = .suspended ∨ s.phase = .running) ∧
      hostTurn s = { s with pending := ts, running := true }) ∨
    ∃ ts, s.pending = .run :: ts ∧ s.phase = .halted ∧
      hostTurn s = { s with pending := ts, results := s.results ++ [.halted] } := by
  have refused : ∀ x ts, s.pending = x :: ts →
      hostTurn s = { s with pending := ts, results := s.results ++ [.refused] } →
      ∃ y ts us, s.pending = y :: ts ∧
        (hostTurn s = { s with pending := ts, inq := s.inq ++ us } ∨
          hostTurn s = { s with pending := ts, inq := s.inq ++ us, results := s.results ++ [.refused] }) ∧
        ∀ n, s.cfg.fifoCapacity = some n → s.inq.length ≤ n → s.inq.length + us.length ≤ n :=
    fun x ts hp h => ⟨x, ts, [], hp, .inr (by simpa using h), fun n _ hl => hl⟩
  have many : ∀ x ts vs, s.pending = x :: ts → hostTurn s = hostInputMany vs { s with pending := ts } →
      ∃ y ts us, s.pending = y :: ts ∧
        (hostTurn s = { s with pending := ts, inq := s.inq ++ us } ∨
          hostTurn s = { s with pending := ts, inq := s.inq ++ us, results := s.results ++ [.refused] }) ∧
        ∀ n, s.cfg.fifoCapacity = some n → s.inq.length ≤ n → s.inq.length + us.length ≤ n := fun x ts vs hp h => by
    obtain ⟨us, hc, hl⟩ := hostInputMany_cases vs { s with pending := ts }
    exact ⟨x, ts, us, hp, hc.imp h.trans h.trans, hl⟩
  cases hp : s.pending with
  | nil => exact .inl ⟨rfl, by unfold hostTurn; rw [hp]⟩
  | cons x ts =>
    have hx : hostTurn s = perform x { s with pending := ts } := by unfold hostTurn; rw [hp]
    rw [← hp]
    cases x with
    | load program =>
      by_cases hl : program.length ≤ s.cfg.memCapacity
      · exact .inr (.inl ⟨program, ts, hp, hl, hx.trans (if_pos hl)⟩)
      · exact .inr (.inr (.inl (refused _ ts hp (hx.trans (if_neg hl)))))
    | input v => exact .inr (.inr (.inl (many _ ts [v] hp hx)))
    | inputMany vs => exact .inr (.inr (.inl (many _ ts vs hp hx)))
    | inputAscii text => exact .inr (.inr (.inl (many _ ts _ hp hx)))
    | run =>
      have hr : hostTurn s = hostRun { s with pending := ts } := hx
      have he : ({ s with pending := ts } : State).phase = s.phase := rfl
      unfold hostRun at hr
      rw [he] at hr
      cases hph : s.phase with
      | faulted => rw [hph] at hr; exact .inr (.inr (.inl (refused _ ts hp hr)))
      | halted => rw [hph] at hr; exact .inr (.inr (.inr (.inr ⟨ts, hp, rfl, hr⟩)))
      | suspended => rw [hph] at hr; exact .inr (.inr (.inr (.inl ⟨ts, hp, .inl rfl, hr⟩)))
      | running => rw [hph] at hr; exact .inr (.inr (.inr (.inl ⟨ts, hp, .inr rfl, hr⟩)))

end Sys2Proof.Machine
end

