-- ==== Sys2Proof/Tests/Slice0.lean ====
section
/-! SUPPORT. Tests on small states. The expected results are those of spec/95_test_vectors.md (the vector is named) or of a
rule named beside the test; the second half shows for each obligation with hypotheses a state that meets them. -/

namespace Sys2Proof.Tests

open Sys2Proof.Machine Sys2Proof.Safety

/-- The cell value of an integer of I64. -/
abbrev c (v : Int) : I64 := Pseudocode.cell v

/-- CORE after HostLoad of a program, with a HostRun in progress. -/
def boot (program : List Int) : State := { hostLoad (program.map c) State.reset with running := true }

/-- The state a step gives. -/
def after (s : State) : State :=
  match step s with
  | .next t => t
  | .fault _ => s
  | .refused _ => s

/-- The fault record a step leaves, as its code and `fpc`. -/
def faultAfter (s : State) : Option (FaultCode × Int) := (after s).fault.map fun f => (f.code, f.fpc.val)

/-- A CORE with a memory capacity and a FIFO capacity of its own. -/
def sized (memCapacity : Nat) (fifoCapacity : Option Nat) (s : State) : State :=
  { s with cfg := ⟨memCapacity, fifoCapacity⟩ }

/-! ### Well-formedness: the one check, once per write-target (R62) -/

theorem test_wf_accepts : (Instr.add .immediate .relative .position).wf = true ∧ (Instr.inp .relative).wf = true ∧
    (Instr.out .immediate).wf = true ∧ (Instr.jnz .immediate .immediate).wf = true := by decide

theorem test_wf_refuses_add : (Instr.add .position .position .immediate).wf = false := by decide

theorem test_wf_refuses_mul : (Instr.mul .position .position .immediate).wf = false := by decide

theorem test_wf_refuses_lt : (Instr.lt .position .position .immediate).wf = false := by decide

theorem test_wf_refuses_eq : (Instr.eq .position .position .immediate).wf = false := by decide

theorem test_wf_refuses_inp : (Instr.inp .immediate).wf = false := by decide

/-! ### Decoding, each word written out from R51 (digits C B A D E) and the signatures of R56 -/

/-- 0 1 0 01, the mode triple 0, 1, 0 of `1001,100,1,100` (30_encoding.md section 6). -/
theorem test_decode_add : decode (c 1001) = .ok (.add .position .immediate .position) := by decide

/-- 2 2 1 02: `m1 = 1`, `m2 = 2`, `m3 = 2`. -/
theorem test_decode_mul : decode (c 22102) = .ok (.mul .immediate .relative .relative) := by decide

/-- 0 0 2 03. -/
theorem test_decode_inp : decode (c 203) = .ok (.inp .relative) := by decide

/-- 0 0 2 04, from the quine `204,-1`. -/
theorem test_decode_out : decode (c 204) = .ok (.out .relative) := by decide

/-- 0 1 2 05. -/
theorem test_decode_jnz : decode (c 1205) = .ok (.jnz .relative .immediate) := by decide

/-- 0 1 0 06, from the quine `1006,101,0`. -/
theorem test_decode_jz : decode (c 1006) = .ok (.jz .position .immediate) := by decide

/-- 2 1 2 07. -/
theorem test_decode_lt : decode (c 21207) = .ok (.lt .relative .immediate .relative) := by decide

/-- 0 1 0 08, from the quine `1008,100,16,101`. -/
theorem test_decode_eq : decode (c 1008) = .ok (.eq .position .immediate .position) := by decide

/-- 0 0 1 09, from the quine `109,1`. -/
theorem test_decode_arb : decode (c 109) = .ok (.arb .immediate) := by decide

/-- 0 0 0 99. -/
theorem test_decode_halt : decode (c 99) = .ok .halt := by decide

/-- D5, H5 (R52). -/
theorem test_decode_negative : decode (c (-1)) = .error .negWord ∧ decode (c (-99)) = .error .negWord := by decide

/-- D1 to D4 (R59). -/
theorem test_decode_bad_opcode : decode (c 0) = .error .badOpcode ∧ decode (c 10) = .error .badOpcode ∧
    decode (c 98) = .error .badOpcode ∧ decode (c 100) = .error .badOpcode := by decide

/-- D10, D16, O7, J11, H2 to H4 (R61). -/
theorem test_decode_reserved : decode (c 100001) = .error .reservedDigit ∧ decode (c 10003) = .error .reservedDigit ∧
    decode (c 1004) = .error .reservedDigit ∧ decode (c 10005) = .error .reservedDigit ∧
    decode (c 199) = .error .reservedDigit ∧ decode (c 100099) = .error .reservedDigit := by decide

/-- D6 to D8, D11, D12 (R60, R63). -/
theorem test_decode_bad_mode : decode (c 301) = .error .badMode ∧ decode (c 3001) = .error .badMode ∧
    decode (c 30001) = .error .badMode ∧ decode (c 31101) = .error .badMode ∧
    decode (c 13001) = .error .badMode := by decide

/-- D9, I4, L8 (R62). -/
theorem test_decode_write_immediate : decode (c 10001) = .error .writeImmediate ∧
    decode (c 103) = .error .writeImmediate ∧ decode (c 11107) = .error .writeImmediate := by decide

/-- The encoder on the words of the list above, and the cells of `1101,7,0,1000000` (S6). -/
theorem test_encode : (encode (.mul .immediate .relative .relative)).val = 22102 ∧
    (encode (.jnz .relative .immediate)).val = 1205 ∧ (encode .halt).val = 99 ∧
    assemble (.add .immediate .immediate .position) [c 7, c 0, c 1000000] = [c 1101, c 7, c 0, c 1000000] := by decide

/-- The table's row word and its legal words, through the host's interface. -/
theorem test_table_word : decodeTableWord 64 1 = some (.add .position .position .position) ∧
    decodeTableWord 64 20108 = some (.eq .immediate .position .relative) ∧ decodeTableWord 64 99 = some .halt ∧
    decodeTableWord 64 98 = none := by decide

/-- The word placed for the host is the one the next step fetches. -/
theorem test_with_fetch_word : (State.reset.withFetchWord 64 99).fetchDecode = .ok .halt ∧
    (after (State.reset.withFetchWord 64 99)).halted = true ∧
    (State.reset.withFetchWord 64 1106).fetchDecode = .ok (.jz .immediate .immediate) := by decide

/-! ### The ten instructions, at most two steps each -/

/-- A3: the sources are read before the write. -/
theorem test_add_own_word : ((after (boot [1, 0, 0, 0])).mem.read 0).val = 2 ∧
    (after (boot [1, 0, 0, 0])).pc.val = 4 := by decide

/-- A4: a Relative target beyond the extent. -/
theorem test_add_relative : ((after { boot [21101, 5, 6, 3] with rb := c 10 }).mem.read 13).val = 11 ∧
    (after { boot [21101, 5, 6, 3] with rb := c 10 }).extent = 14 := by decide

/-- M2. -/
theorem test_mul_signs : ((after (boot [1102, -3, -4, 5])).mem.read 5).val = 12 := by decide

/-- M5. -/
theorem test_mul_overflow : faultAfter (boot [1102, -9223372036854775808, -1, 5]) = some (.aluOvf, 0) := by decide

/-- I3. -/
theorem test_inp_relative : ((after { boot [203, 5] with rb := c (-2), inq := [c (-9)] }).mem.read 3).val = -9 ∧
    (after { boot [203, 5] with rb := c (-2), inq := [c (-9)] }).inq = [] := by decide

/-- I5: a bad target faults before the empty FIFO is looked at. -/
theorem test_inp_bad_target : faultAfter (boot [3, -1]) = some (.eaNeg, 0) ∧
    (after (boot [3, 5])).results = [.needInput] ∧ (after (boot [3, 5])).pc.val = 0 := by decide

/-- O3. -/
theorem test_out_relative : (after { boot [204, -1, 8] with rb := c 3 }).results = [.output (c 8)] ∧
    (after { boot [204, -1, 8] with rb := c 3 }).pc.val = 2 := by decide

/-- O4: a read beyond the extent is 0 and grows nothing. -/
theorem test_out_beyond_extent : (after (boot [4, 1000])).results = [.output (c 0)] ∧
    (after (boot [4, 1000])).extent = 2 := by decide

/-- J4. -/
theorem test_jnz_position : (after (boot [5, 3, 4, 2, 9])).pc.val = 9 := by decide

/-- J7: both parameters are resolved although the jump is not taken. -/
theorem test_jnz_resolves_both : faultAfter (boot [105, 0, -1]) = some (.eaNeg, 0) := by decide

/-- J10. -/
theorem test_jz_relative : (after { boot [2106, 0, 0] with rb := c 2 }).pc.val = 0 := by decide

/-- J9. -/
theorem test_jz_not_taken : (after (boot [1106, 5, 7])).pc.val = 3 := by decide

/-- L4: the comparison is signed. -/
theorem test_lt_signed : ((after (boot [1107, -1, 0, 5])).mem.read 5).val = 1 := by decide

/-- L6: no difference is formed. -/
theorem test_lt_extremes :
    ((after (boot [1107, 9223372036854775807, -9223372036854775808, 5])).mem.read 5).val = 0 := by decide

/-- E3: the destination is a source. -/
theorem test_eq_own_source : ((after (boot [8, 5, 6, 5, 0, -3, -3])).mem.read 5).val = 1 := by decide

/-- E2. -/
theorem test_eq_differ : ((after (boot [1108, 4, -4, 5])).mem.read 5).val = 0 := by decide

/-- R4: the operand is resolved with the old `rb`. -/
theorem test_arb_old_base : (after { boot [209, 1, 0, 0, 10] with rb := c 3 }).rb.val = 13 := by decide

/-- R6. -/
theorem test_arb_overflow :
    faultAfter { boot [109, -1] with rb := c (-9223372036854775808) } = some (.aluOvf, 0) := by decide

/-- H6: the values queued stay. -/
theorem test_halt_keeps_input : (after { boot [99] with inq := [c 1, c 2] }).inq = [c 1, c 2] ∧
    (after (boot [99])).phase = .halted ∧ (after (boot [99])).pc.val = 1 := by decide

/-- P3: HALT in the last cell. -/
theorem test_halt_last_cell : faultAfter { boot [] with mem := [(9223372036854775807, c 99)], pc := c 9223372036854775807 }
    = some (.pcOvf, 9223372036854775807) := by decide

/-! ### Addresses, capacity and faults -/

/-- X1, X2, X3. -/
theorem test_capacity : faultAfter (sized 100 none (boot [1, 0, 0, 100])) = some (.writeBeyondCapacity, 0) ∧
    ((after (sized 100 none (boot [1, 0, 0, 99]))).mem.read 99).val = 2 ∧
    (after (sized 100 none (boot [4, 100]))).results = [.output (c 0)] := by decide

/-- X4, X5: a negative sum wins over a sum that is too large. -/
theorem test_relative_range : faultAfter { boot [204, 5] with rb := c 9223372036854775807 } = some (.eaOvf, 0) ∧
    faultAfter { boot [204, -5] with rb := c (-9223372036854775808) } = some (.eaNeg, 0) := by decide

/-- J5: the target of a jump is checked at the next fetch, with `fpc` that target. -/
theorem test_jump_to_negative : faultAfter (after (boot [1105, 1, -4])) = some (.pcNeg, -4) := by decide

/-- D18 and R131: the indication the host is given. -/
theorem test_fault_indication : (after (boot [])).results = [.fault ⟨.badOpcode, c 0⟩] ∧
    (after (boot [])).phase = .faulted ∧ (after (boot [])).running = false := by decide

/-! ### Host transactions -/

/-- R105: HostLoad leaves a fault behind. -/
theorem test_load_clears_fault : (after { after (boot [0]) with pending := [.load [c 99]] }).phase = .suspended ∧
    (after { after (boot [0]) with pending := [.load [c 99]] }).fetchDecode = .ok .halt := by decide

/-- R111: the text `NOT` is 78, 79, 84. -/
theorem test_input_ascii : (after { State.reset with pending := [.inputAscii ['N', 'O', 'T']] }).inq.map I64.val =
    [78, 79, 84] := by decide

/-- R112: with room for two of three values the third is refused. -/
theorem test_input_full : (after { sized 10 (some 2) State.reset with pending := [.inputMany [c 1, c 2, c 3]] }).inq =
    [c 1, c 2] ∧
    (after { sized 10 (some 2) State.reset with pending := [.inputMany [c 1, c 2, c 3]] }).results = [.refused] := by
  decide

/-- R114: HostRun on a halted CORE. -/
theorem test_run_halted : (after { after (boot [99]) with pending := [.run] }).results = [.halted, .halted] ∧
    (after { after (boot [99]) with pending := [.run] }).pc.val = 1 := by decide

/-- R113: a program loaded and run from reset by the host's transactions reaches its first instruction. -/
theorem test_run_from_reset :
    (after (after { State.reset with pending := [.load [c 104, c 7], .run] })).fetchDecode = .ok (.out .immediate) ∧
    (after (after { State.reset with pending := [.load [c 104, c 7], .run] })).phase = .running := by decide

/-! ### Witnesses: for each obligation with hypotheses, values that meet them, clause by clause -/

/-- The words of `WrittenOutWordsDecode` are cell values. -/
theorem witness_WrittenOutWordsDecode :
    ∀ v ∈ [99, 3, 204, 109, 1001, 1102, 1006, 1205, 21207, 1008], (c v).val = v := by decide

theorem witness_NegativeWordIsMalformed : (c (-1)).val < 0 ∧ (c minI).val < 0 ∧ (boot [-1]).phase = .running ∧
    0 ≤ (boot [-1]).pc.val ∧ ((boot [-1]).mem.read (boot [-1]).pc.val.toNat).val < 0 := by decide

theorem witness_UnassignedOpcodeIsMalformed : 0 ≤ (c 0).val ∧
    (c 0).val.toNat % 100 ∉ [1, 2, 3, 4, 5, 6, 7, 8, 9, 99] ∧ (c 98).val.toNat % 100 ∉ [1, 2, 3, 4, 5, 6, 7, 8, 9, 99] ∧
    (boot []).phase = .running ∧ 0 ≤ (boot []).pc.val ∧ ∀ e ∈ (boot []).mem, e.1 ≠ (boot []).pc.val.toNat := by decide

/-- A higher digit of HALT, the third mode field of OUT, a digit of weight `10^5` of ADD (R61). -/
theorem witness_ReservedDigitIsMalformed :
    (Pseudocode.signature ((c 199).val.toNat % 100) = some [] ∧ digit (1 + 1) (c 199).val.toNat ≠ 0) ∧
    (Pseudocode.signature ((c 10004).val.toNat % 100) = some [.read] ∧ digit (3 + 1) (c 10004).val.toNat ≠ 0) ∧
    (Pseudocode.signature ((c 100001).val.toNat % 100) = some [.read, .read, .write] ∧
      (c 100001).val.toNat / 100000 ≠ 0) := by decide

/-- The first and the last used mode field (R60). -/
theorem witness_BadModeIsMalformed :
    (0 ≤ (c 304).val ∧ Pseudocode.signature ((c 304).val.toNat % 100) = some [.read] ∧
      (c 304).val.toNat / 10 ^ ([ParamKind.read].length + 2) = 0 ∧ 2 < digit (1 + 1) (c 304).val.toNat) ∧
    (Pseudocode.signature ((c 90001).val.toNat % 100) = some [.read, .read, .write] ∧
      (c 90001).val.toNat / 10 ^ ([ParamKind.read, .read, .write].length + 2) = 0 ∧
      2 < digit (3 + 1) (c 90001).val.toNat) := by decide

theorem witness_ImmediateTargetIsMalformed : (Instr.eq .relative .immediate .immediate).wf = false ∧
    (Instr.inp .immediate).wf = false := by decide

/-- A program of exactly `MEM_CAPACITY` values. -/
theorem witness_MemoryIsTotalMap : [c 7, c 8].length ≤ (sized 2 none State.reset).cfg.memCapacity := by decide

/-- At the extent, one below it, and a cell between the extent and the cell stored to. -/
theorem witness_StoreGrowsExtent : Inv (boot [99, 5]) ∧ (boot [99, 5]).extent ≤ 2 ∧ 1 < (boot [99, 5]).extent ∧
    (boot [99, 5]).extent ≤ 2 ∧ 2 < 3 := by decide

theorem witness_StoreIsSeenByNextFetch : (c 3).val = ((3 : Nat) : Int) := by decide

theorem witness_ResolveFollowsPseudocode : 0 ≤ (boot [21101, 5, 6, 3]).pc.val ∧ Mode.relative ≠ .immediate := by decide

/-- One state per clause: fetch, decode, resolution, and the three overflows. -/
theorem witness_FaultPriority :
    ((after (boot [1105, 1, -1])).phase = .running ∧ (after (boot [1105, 1, -1])).pc.val < 0) ∧
    ((boot [13001]).phase = .running ∧ decode ((boot [13001]).mem.read 0) = .error .badMode) ∧
    (decode ((boot [1, -1, -2, -3]).mem.read 0) = .ok (.add .position .position .position) ∧
      resolutionFault (boot [1, -1, -2, -3]) (.add .position .position .position) = some .eaNeg) ∧
    (decode ((boot [1101, maxI, 1, 5]).mem.read 0) = .ok (.add .immediate .immediate .position) ∧
      resolutionFault (boot [1101, maxI, 1, 5]) (.add .immediate .immediate .position) = none ∧
      ¬ Fits ((operand (boot [1101, maxI, 1, 5]) 1 .immediate).val + (operand (boot [1101, maxI, 1, 5]) 2 .immediate).val)) ∧
    (decode ((boot [1102, minI, -1, 5]).mem.read 0) = .ok (.mul .immediate .immediate .position) ∧
      resolutionFault (boot [1102, minI, -1, 5]) (.mul .immediate .immediate .position) = none ∧
      ¬ Fits ((operand (boot [1102, minI, -1, 5]) 1 .immediate).val *
        (operand (boot [1102, minI, -1, 5]) 2 .immediate).val)) ∧
    (decode ((boot [109, -1]).mem.read 0) = .ok (.arb .immediate) ∧
      resolutionFault { boot [109, -1] with rb := c minI } (.arb .immediate) = none ∧
      ¬ Fits ((c minI).val + (operand { boot [109, -1] with rb := c minI } 1 .immediate).val)) := by decide

/-- The sum that just fits, the one that does not, and a target at the capacity. -/
theorem witness_AddRule :
    (0 ≤ (boot [1101, maxI - 1, 1, 5]).pc.val ∧
      resolutionFault (boot [1101, maxI - 1, 1, 5]) (.add .immediate .immediate .position) = none ∧
      (c maxI).val = (operand (boot [1101, maxI - 1, 1, 5]) 1 .immediate).val +
        (operand (boot [1101, maxI - 1, 1, 5]) 2 .immediate).val ∧
      (c 4).val = (boot [1101, maxI - 1, 1, 5]).pc.val + 4) ∧
    (resolutionFault (boot [1101, maxI, 1, 5]) (.add .immediate .immediate .position) = none ∧
      ¬ Fits ((operand (boot [1101, maxI, 1, 5]) 1 .immediate).val + (operand (boot [1101, maxI, 1, 5]) 2 .immediate).val)) ∧
    resolutionFault (sized 100 none (boot [1, 0, 0, 100])) (.add .position .position .position) =
      some .writeBeyondCapacity := by decide

theorem witness_MulRule :
    (0 ≤ (boot [1102, -4294967296, 2147483648, 5]).pc.val ∧
      resolutionFault (boot [1102, -4294967296, 2147483648, 5]) (.mul .immediate .immediate .position) = none ∧
      (c minI).val = (operand (boot [1102, -4294967296, 2147483648, 5]) 1 .immediate).val *
        (operand (boot [1102, -4294967296, 2147483648, 5]) 2 .immediate).val ∧
      (c 4).val = (boot [1102, -4294967296, 2147483648, 5]).pc.val + 4) ∧
    (resolutionFault (boot [1102, 3037000500, 3037000500, 5]) (.mul .immediate .immediate .position) = none ∧
      ¬ Fits ((operand (boot [1102, 3037000500, 3037000500, 5]) 1 .immediate).val *
        (operand (boot [1102, 3037000500, 3037000500, 5]) 2 .immediate).val)) ∧
    resolutionFault (boot [2, -1, 0, 0]) (.mul .position .position .position) = some .eaNeg := by decide

/-- A value queued, an empty FIFO, and a target of the address just below 0; the words of the encoding clauses. -/
theorem witness_InRule :
    (0 ≤ (boot [3, 5]).pc.val ∧ resolutionFault (boot [3, 5]) (.inp .position) = none ∧
      ({ boot [3, 5] with inq := [c 42] } : State).inq = c 42 :: [] ∧ (c 2).val = (boot [3, 5]).pc.val + 2) ∧
    (boot [3, 5]).inq = [] ∧ resolutionFault (boot [3, -1]) (.inp .position) = some .eaNeg ∧
    (c 103).val = 103 ∧ (0 ≤ (c 1003).val ∧ (c 1003).val.toNat % 100 = 3 ∧ (c 1003).val.toNat / 1000 ≠ 0) := by decide

theorem witness_OutRule :
    (0 ≤ (boot [4, 0]).pc.val ∧ resolutionFault (boot [4, 0]) (.out .position) = none ∧
      (c 2).val = (boot [4, 0]).pc.val + 2) ∧
    resolutionFault { boot [204, 1] with rb := c maxI } (.out .relative) = some .eaOvf ∧
    (0 ≤ (c 1004).val ∧ (c 1004).val.toNat % 100 = 4 ∧ (c 1004).val.toNat / 1000 ≠ 0) ∧
    ((c 304).val.toNat / 1000 = 0 ∧ 2 < digit 2 (c 304).val.toNat) := by decide

/-- Taken and not taken, a fault of the second parameter; the words of the encoding clauses. -/
theorem witness_JnzRule :
    (0 ≤ (boot [1105, 1, 7]).pc.val ∧ resolutionFault (boot [1105, 1, 7]) (.jnz .immediate .immediate) = none ∧
      (c 3).val = (boot [1105, 1, 7]).pc.val + 3 ∧ (operand (boot [1105, 1, 7]) 1 .immediate).val ≠ 0 ∧
      (operand (boot [1105, 0, 7]) 1 .immediate).val = 0) ∧
    resolutionFault (boot [105, 0, -1]) (.jnz .immediate .position) = some .eaNeg ∧
    (0 ≤ (c 10005).val ∧ (c 10005).val.toNat % 100 = 5 ∧ (c 10005).val.toNat / 10000 ≠ 0) ∧
    ((c 3005).val.toNat / 10000 = 0 ∧ 2 < digit 3 (c 3005).val.toNat) := by decide

theorem witness_JzRule :
    (0 ≤ (boot [1106, 0, 7]).pc.val ∧ resolutionFault (boot [1106, 0, 7]) (.jz .immediate .immediate) = none ∧
      (c 3).val = (boot [1106, 0, 7]).pc.val + 3 ∧ (operand (boot [1106, 0, 7]) 1 .immediate).val = 0 ∧
      (operand (boot [1106, -1, 7]) 1 .immediate).val ≠ 0) ∧
    resolutionFault (boot [106, 1, -1]) (.jz .immediate .position) = some .eaNeg ∧
    (0 ≤ (c 10006).val ∧ (c 10006).val.toNat % 100 = 6 ∧ (c 10006).val.toNat / 10000 ≠ 0) ∧
    ((c 306).val.toNat / 10000 = 0 ∧ 2 < digit 2 (c 306).val.toNat) := by decide

theorem witness_LtRule :
    (0 ≤ (boot [1107, minI, maxI, 5]).pc.val ∧
      resolutionFault (boot [1107, minI, maxI, 5]) (.lt .immediate .immediate .position) = none ∧
      (c 4).val = (boot [1107, minI, maxI, 5]).pc.val + 4) ∧
    resolutionFault (boot [1107, 1, 2, -1]) (.lt .immediate .immediate .position) = some .eaNeg := by decide

theorem witness_EqRule :
    (0 ≤ (boot [1108, minI, minI, 1]).pc.val ∧
      resolutionFault (boot [1108, minI, minI, 1]) (.eq .immediate .immediate .position) = none ∧
      (c 4).val = (boot [1108, minI, minI, 1]).pc.val + 4) ∧
    resolutionFault (boot [1108, 1, 2, -1]) (.eq .immediate .immediate .position) = some .eaNeg := by decide

/-- A sum that is negative (R102), one outside I64, and a fault of the parameter. -/
theorem witness_ArbRule :
    (0 ≤ (boot [109, -5]).pc.val ∧ resolutionFault (boot [109, -5]) (.arb .immediate) = none ∧
      (c (-5)).val = (boot [109, -5]).rb.val + (operand (boot [109, -5]) 1 .immediate).val ∧
      (c 2).val = (boot [109, -5]).pc.val + 2) ∧
    (resolutionFault { boot [109, 1] with rb := c maxI } (.arb .immediate) = none ∧
      ¬ Fits ((c maxI).val + (operand { boot [109, 1] with rb := c maxI } 1 .immediate).val)) ∧
    resolutionFault (boot [9, -1]) (.arb .position) = some .eaNeg ∧
    (0 ≤ (c 1109).val ∧ (c 1109).val.toNat % 100 = 9 ∧ (c 1109).val.toNat / 1000 ≠ 0) ∧
    ((c 309).val.toNat / 1000 = 0 ∧ 2 < digit 2 (c 309).val.toNat) := by decide

/-- The last cell at which HALT completes, the last cell of all, and the words of the encoding clauses. -/
theorem witness_HaltRule : (c maxI).val = (c (maxI - 1)).val + 1 ∧ ({ boot [] with pc := c maxI } : State).pc.val = maxI ∧
    (c (-99)).val = -99 ∧ (0 ≤ (c 199).val ∧ (c 199).val.toNat % 100 = 99 ∧ (c 199).val ≠ 99) := by decide

/-- The boundary pairs are cell values; the states are those of the ADD, MUL and ARB witnesses. -/
theorem witness_OverflowIsChecked :
    (∀ v ∈ [maxI, minI, 1, -1, 3037000500, 4294967296, 2147483648, 3037000499, -4294967296], (c v).val = v) ∧
    resolutionFault (boot [1101, maxI, 1, 5]) (.add .immediate .immediate .position) = none ∧
    ¬ Fits ((operand (boot [1101, maxI, 1, 5]) 1 .immediate).val + (operand (boot [1101, maxI, 1, 5]) 2 .immediate).val) ∧
    resolutionFault (boot [1102, minI, -1, 5]) (.mul .immediate .immediate .position) = none ∧
    ¬ Fits ((operand (boot [1102, minI, -1, 5]) 1 .immediate).val * (operand (boot [1102, minI, -1, 5]) 2 .immediate).val) ∧
    resolutionFault { boot [109, -1] with rb := c minI } (.arb .immediate) = none ∧
    ¬ Fits ((c minI).val + (operand { boot [109, -1] with rb := c minI } 1 .immediate).val) := by decide

/-- `exec` of the instruction gives that next state: said by `rfl`, since outcomes are not compared by a decision. -/
theorem exec_lt_state : exec (.lt .immediate .immediate .position) (boot [1107, 3, 8, 5]) =
    .next (after (boot [1107, 3, 8, 5])) := by rfl

theorem exec_eq_state : exec (.eq .immediate .immediate .position) (boot [1108, 4, 4, 5]) =
    .next (after (boot [1108, 4, 4, 5])) := by rfl

theorem witness_ComparisonGivesOneOrZero :
    (boot [1107, 3, 8, 5]).fault = none ∧ (exec (.lt .immediate .immediate .position) (boot [1107, 3, 8, 5]) =
      .next (after (boot [1107, 3, 8, 5]))) ∧ (after (boot [1107, 3, 8, 5])).fault = none ∧
    resolveWrite (boot [1107, 3, 8, 5]) 3 .position = .ok 5 ∧ (boot [1108, 4, 4, 5]).fault = none ∧
    (exec (.eq .immediate .immediate .position) (boot [1108, 4, 4, 5]) = .next (after (boot [1108, 4, 4, 5]))) ∧
    (after (boot [1108, 4, 4, 5])).fault = none ∧ resolveWrite (boot [1108, 4, 4, 5]) 3 .position = .ok 5 :=
  ⟨by decide, exec_lt_state, by decide, by decide, by decide, exec_eq_state, by decide, by decide⟩

/-- JNZ to the address just below 0 and JZ to the first cell beyond the extent. -/
theorem witness_JumpTargetIsCheckedAtNextFetch :
    ((boot [1105, 1, -1]).phase = .running ∧ 0 ≤ (boot [1105, 1, -1]).pc.val ∧
      resolutionFault (boot [1105, 1, -1]) (.jnz .immediate .immediate) = none ∧
      (operand (boot [1105, 1, -1]) 1 .immediate).val ≠ 0 ∧ (after (boot [1105, 1, -1])).pc.val < 0) ∧
    ((boot [1106, 0, 3]).phase = .running ∧ 0 ≤ (boot [1106, 0, 3]).pc.val ∧
      resolutionFault (boot [1106, 0, 3]) (.jz .immediate .immediate) = none ∧
      (operand (boot [1106, 0, 3]) 1 .immediate).val = 0 ∧ 0 ≤ (after (boot [1106, 0, 3])).pc.val ∧
      ∀ e ∈ (after (boot [1106, 0, 3])).mem, e.1 ≠ (after (boot [1106, 0, 3])).pc.val.toNat) := by decide

/-- The four storing instructions, with a target that resolves and one that does not. -/
theorem witness_StoringInstructionsFrame :
    (exec (.add .immediate .immediate .position) (boot [1101, 1, 2, 5]) = .next (after (boot [1101, 1, 2, 5])) ∧
      resolveWrite (boot [1101, 1, 2, 5]) 3 .position = .ok 5) ∧
    exec (.mul .immediate .immediate .position) (boot [1102, 1, 2, 5]) = .next (after (boot [1102, 1, 2, 5])) ∧
    exec (.lt .immediate .immediate .position) (boot [1107, 3, 8, 5]) = .next (after (boot [1107, 3, 8, 5])) ∧
    exec (.eq .immediate .immediate .position) (boot [1108, 4, 4, 5]) = .next (after (boot [1108, 4, 4, 5])) ∧
    (exec (.add .immediate .immediate .position) (boot [1101, 1, 2, -1]) = .next (after (boot [1101, 1, 2, -1])) ∧
      resolveWrite (boot [1101, 1, 2, -1]) 3 .position = .error .eaNeg) :=
  ⟨⟨by rfl, by decide⟩, by rfl, exec_lt_state, exec_eq_state, by rfl, by decide⟩

theorem witness_InFrame :
    (exec (.inp .position) { boot [3, 5] with inq := [c 42] } = .next (after { boot [3, 5] with inq := [c 42] }) ∧
      resolveWrite { boot [3, 5] with inq := [c 42] } 1 .position = .ok 5) ∧
    (exec (.inp .position) (boot [3, -1]) = .next (after (boot [3, -1])) ∧
      resolveWrite (boot [3, -1]) 1 .position = .error .eaNeg) :=
  ⟨⟨by rfl, by decide⟩, by rfl, by decide⟩

theorem witness_JumpFrame :
    exec (.jnz .immediate .immediate) (boot [1105, 1, 7]) = .next (after (boot [1105, 1, 7])) ∧
    exec (.jz .immediate .immediate) (boot [1106, 5, 7]) = .next (after (boot [1106, 5, 7])) := ⟨by rfl, by rfl⟩

theorem witness_OutFrame : exec (.out .immediate) (boot [104, -5]) = .next (after (boot [104, -5])) := by rfl

theorem witness_ArbFrame : exec (.arb .immediate) (boot [109, -5]) = .next (after (boot [109, -5])) := by rfl

theorem witness_HaltFrame : exec .halt (boot [99]) = .next (after (boot [99])) := by rfl

/-- Also for StepFollowsPseudocode and HostRunFollowsPseudocode, whose one hypothesis is the first. -/
theorem witness_StepRunsDecodedInstruction : (boot [99]).phase = .running ∧ 0 ≤ (boot [99]).pc.val ∧
    decode ((boot [99]).mem.read (boot [99]).pc.val.toNat) = .ok .halt := by decide

theorem witness_StepFollowsPseudocode : (boot [1101, 1, 2, 5]).phase = .running := by decide

theorem witness_HostRunFollowsPseudocode : (boot [109, 1, 99]).phase = .running := by decide

/-- A step in phase RUNNING that goes on; the same state serves every statement about such a step. -/
theorem step_add_state : (boot [1101, 1, 2, 5]).phase = .running ∧
    step (boot [1101, 1, 2, 5]) = .next (after (boot [1101, 1, 2, 5])) := ⟨by decide, by rfl⟩

theorem witness_EngineYieldsAtThreePoints : (boot [1101, 1, 2, 5]).phase = .running ∧
    step (boot [1101, 1, 2, 5]) = .next (after (boot [1101, 1, 2, 5])) := step_add_state

theorem witness_FaultEntryIsPrecise : (boot [0]).phase = .running ∧ step (boot [0]) = .next (after (boot [0])) ∧
    (after (boot [0])).fault ≠ none := ⟨by decide, by rfl, by decide⟩

theorem witness_OneWritePerInstruction : (boot [1101, 1, 2, 5]).phase = .running ∧
    step (boot [1101, 1, 2, 5]) = .next (after (boot [1101, 1, 2, 5])) := step_add_state

theorem witness_EngineIgnoresHostSide : (boot [1101, 1, 2, 5]).phase = .running ∧
    step (boot [1101, 1, 2, 5]) = .next (after (boot [1101, 1, 2, 5])) := step_add_state

/-- One value queued, which IN takes. -/
theorem witness_LaterInputDoesNotChangeStep : ({ boot [3, 5] with inq := [c 42] } : State).phase = .running ∧
    ({ boot [3, 5] with inq := [c 42] } : State).inq ≠ [] ∧
    step { boot [3, 5] with inq := [c 42] } = .next (after { boot [3, 5] with inq := [c 42] }) :=
  ⟨by decide, by decide, by rfl⟩

theorem witness_ParametersNeverChange : step (boot [1101, 1, 2, 5]) = .next (after (boot [1101, 1, 2, 5])) := by rfl

theorem witness_FifoOrder :
    (step { boot [3, 5] with inq := [c 42] } = .next (after { boot [3, 5] with inq := [c 42] }) ∧
      ({ boot [3, 5] with inq := [c 42] } : State).phase = .running) ∧
    (step { State.reset with pending := [.input (c 1)] } = .next (after { State.reset with pending := [.input (c 1)] }) ∧
      ({ State.reset with pending := [.input (c 1)] } : State).phase ≠ .running) :=
  ⟨⟨by rfl, by decide⟩, by rfl, by decide⟩

/-- A program that just fits. -/
theorem witness_HostLoadGivesResetState :
    ({ sized 1 none State.reset with pending := [.load [c 99]] } : State).phase ≠ .running ∧
    ({ sized 1 none State.reset with pending := [.load [c 99]] } : State).pending = .load [c 99] :: [] ∧
    [c 99].length ≤ (sized 1 none State.reset).cfg.memCapacity := by decide

/-- A program that is one value too long. -/
theorem witness_TooLongHostLoadIsRefused :
    ({ sized 1 none State.reset with pending := [.load [c 104, c 99]] } : State).phase ≠ .running ∧
    ({ sized 1 none State.reset with pending := [.load [c 104, c 99]] } : State).pending = .load [c 104, c 99] :: [] ∧
    (sized 1 none State.reset).cfg.memCapacity < [c 104, c 99].length := by decide

/-- Room for one value. -/
theorem witness_HostInputAppends :
    ({ sized 9 (some 1) State.reset with pending := [.input (c 5)] } : State).phase ≠ .running ∧
    (sized 9 (some 1) State.reset).fault = none ∧ (sized 9 (some 1) State.reset).cfg.fifoCapacity = some 1 ∧
    (sized 9 (some 1) State.reset).inq.length < 1 := by decide

/-- A fault, and a full FIFO. -/
theorem witness_HostInputIsRefused :
    (({ after (boot [0]) with pending := [.input (c 5)] } : State).phase ≠ .running ∧ (after (boot [0])).fault ≠ none) ∧
    (({ sized 9 (some 1) State.reset with inq := [c 1], pending := [.input (c 5)] } : State).phase ≠ .running ∧
      (sized 9 (some 1) State.reset).cfg.fifoCapacity = some 1 ∧
      1 ≤ ({ sized 9 (some 1) State.reset with inq := [c 1] } : State).inq.length) := by decide

/-- A turn of the host, then an unbounded FIFO, a full one, and a fault. -/
theorem witness_HostInputManyKeepsOrder :
    (({ State.reset with pending := [.inputMany [c 1, c 2]] } : State).phase ≠ .running ∧
      ({ State.reset with pending := [.inputMany [c 1, c 2]] } : State).pending = .inputMany [c 1, c 2] :: []) ∧
    (State.reset.fault = none ∧ State.reset.cfg.fifoCapacity = none) ∧
    ((sized 9 (some 2) State.reset).fault = none ∧ (sized 9 (some 2) State.reset).cfg.fifoCapacity = some 2 ∧
      ({ sized 9 (some 2) State.reset with inq := [c 1, c 2] } : State).inq.length ≤ 2) ∧
    (after (boot [0])).fault ≠ none := by decide

theorem witness_HostInputAsciiQueuesCodePoints :
    [c 78, c 79, c 84].map I64.val = ['N', 'O', 'T'].map (fun x => (x.toNat : Int)) ∧
    ({ State.reset with pending := [.inputAscii ['N', 'O', 'T']] } : State).phase ≠ .running ∧
    ({ State.reset with pending := [.inputAscii ['N', 'O', 'T']] } : State).pending =
      .inputAscii ['N', 'O', 'T'] :: [] ∧
    State.reset.fault = none ∧ State.reset.cfg.fifoCapacity = none := by decide

/-- SUSPENDED, HALTED and FAULTED. -/
theorem witness_HostRunByPhase : ({ State.reset with pending := [.run] } : State).phase = .suspended ∧
    ({ after (boot [99]) with pending := [.run] } : State).phase = .halted ∧
    ({ after (boot [0]) with pending := [.run] } : State).phase = .faulted := by decide

theorem witness_NothingChangesBetweenTransactions : State.reset.phase ≠ .running ∧ State.reset.pending = [] := by decide

/-- A halted CORE with a HostRun to come, and the step that halts. -/
theorem witness_HaltIsPermanent :
    (({ after (boot [99]) with pending := [.run] } : State).phase = .halted ∧
      step { after (boot [99]) with pending := [.run] } = .next (after { after (boot [99]) with pending := [.run] })) ∧
    (step (boot [99]) = .next (after (boot [99])) ∧ (boot [99]).halted = false ∧ (after (boot [99])).halted = true) :=
  ⟨⟨by decide, by rfl⟩, by rfl, by decide, by decide⟩

theorem witness_FaultIsSticky : ({ after (boot [0]) with pending := [.input (c 1)] } : State).phase = .faulted ∧
    step { after (boot [0]) with pending := [.input (c 1)] } =
      .next (after { after (boot [0]) with pending := [.input (c 1)] }) := ⟨by decide, by rfl⟩

theorem witness_StarvedInRetries : ({ boot [3, 5] with pending := [.run] } : State).phase = .running ∧
    ({ boot [3, 5] with pending := [.run] } : State).fetchDecode = .ok (.inp .position) ∧
    resolutionFault { boot [3, 5] with pending := [.run] } (.inp .position) = none ∧
    ({ boot [3, 5] with pending := [.run] } : State).inq = [] := by decide

/-- A run that ends at its first step, in each of the four ways a HostRun ends. -/
theorem witness_HostRunEndsWithOneResult :
    ((boot [104, 7]).phase = .running ∧ runToEnd 1 (boot [104, 7]) = some (after (boot [104, 7]))) ∧
    ((boot [3, 5]).phase = .running ∧ runToEnd 1 (boot [3, 5]) = some (after (boot [3, 5]))) ∧
    ((boot [99]).phase = .running ∧ runToEnd 1 (boot [99]) = some (after (boot [99]))) ∧
    ((boot [0]).phase = .running ∧ runToEnd 1 (boot [0]) = some (after (boot [0]))) :=
  ⟨⟨by decide, by rfl⟩, ⟨by decide, by rfl⟩, ⟨by decide, by rfl⟩, by decide, by rfl⟩

/-- The invariant in a state that is not the reset state, with a step that stores. -/
theorem witness_StepKeepsInvariant : Inv (boot [1101, 1, 2, 5]) ∧
    step (boot [1101, 1, 2, 5]) = .next (after (boot [1101, 1, 2, 5])) := ⟨by decide, by rfl⟩

end Sys2Proof.Tests
end

/-! ## Scope (00_scope.md): no step changes the parameters, and every step keeps the invariant -/

namespace Sys2Proof.Machine

/-- Everything a step can do: a step of the engine in phase RUNNING, a turn of the host in every other phase. -/
theorem step_cases {s t : State} (h : step s = .next t) :
    (s.phase = .running ∧ engineStep s = .next t) ∨ (s.phase ≠ .running ∧ t = hostTurn s) := by
  by_cases hp : s.phase = .running
  · exact .inl ⟨hp, step_running hp ▸ h⟩
  · rw [step_not_running hp] at h
    exact .inr ⟨hp, by injection h with h; exact h.symm⟩

/-! ### The parameters (R29) -/

theorem exec_cfg {i : Instr} {s t : State} (h : exec i s = .next t) : t.cfg = s.cfg := by
  obtain ⟨_, rfl⟩ | ⟨_, _, _, -, rfl⟩ | ⟨_, _, _, _, _, -, -, -, rfl⟩ | ⟨_, -, -, rfl⟩ | ⟨_, _, _, -, -, rfl⟩ |
    ⟨_, rfl⟩ | ⟨_, _, rfl⟩ | ⟨_, -, rfl⟩ := exec_cases h <;> rfl

theorem engineStep_cfg {s t : State} (h : engineStep s = .next t) : t.cfg = s.cfg := by
  obtain ⟨_, -, rfl⟩ | ⟨_, -, he⟩ := engineStep_cases h
  · rfl
  · exact exec_cfg he

theorem hostTurn_cfg (s : State) : (hostTurn s).cfg = s.cfg := by
  obtain ⟨-, h⟩ | ⟨_, _, -, -, h⟩ | ⟨_, _, _, -, h | h, -⟩ | ⟨_, -, -, h⟩ | ⟨_, -, -, h⟩ := hostTurn_cases s <;> rw [h]

end Sys2Proof.Machine

namespace Sys2Proof.Safety

open Sys2Proof.Machine

/-! ### The invariant under the operations of a state

The clauses of `Inv` that an operation does not touch carry over as they stand; writing `pc` or `rb` touches none. -/

theorem Inv.setPc {s : State} (hi : Inv s) (v : I64) : Inv (s.setPc v) := hi

theorem Inv.setRb {s : State} (hi : Inv s) (v : I64) : Inv (s.setRb v) := hi

theorem Inv.yieldResult {s : State} (hi : Inv s) (r : Answer) : Inv (s.yieldResult r) := by
  obtain ⟨hcfg, hmem, hlisted, hext, hfifo, -, hhalt⟩ := hi
  exact ⟨hcfg, hmem, hlisted, hext, hfifo, fun h => Bool.noConfusion h, hhalt⟩

/-- The FIFO clause of the invariant (R112): a finite capacity bounds the length. -/
theorem fifo_within_iff {capacity : Option Nat} {len : Nat} :
    capacity.all (fun n => decide (len ≤ n)) = true ↔ ∀ n, capacity = some n → len ≤ n := by
  cases capacity <;> simp

/-- The FIFO may be replaced by any that is within the capacity. -/
theorem Inv.setInq {s : State} (hi : Inv s) {q : List I64} (hq : ∀ n, s.cfg.fifoCapacity = some n → q.length ≤ n) :
    Inv (s.setInq q) := by
  obtain ⟨hcfg, hmem, hlisted, hext, -, hrun, hhalt⟩ := hi
  exact ⟨hcfg, hmem, hlisted, hext, fifo_within_iff.mpr hq, hrun, hhalt⟩

theorem Inv.fifo_le {s : State} (hi : Inv s) {n : Nat} (hn : s.cfg.fifoCapacity = some n) : s.inq.length ≤ n := by
  obtain ⟨-, -, -, -, hfifo, -⟩ := hi
  exact fifo_within_iff.mp hfifo n hn

/-- The address space bounds the capacity (R7). -/
theorem Inv.memCapacity_le {s : State} (hi : Inv s) : s.cfg.memCapacity ≤ 9223372036854775808 := by
  obtain ⟨⟨-, hcap, -⟩, -⟩ := hi
  exact hcap

/-- A store below the capacity keeps the invariant: the extent grows past the cell stored to (R34, R36). -/
theorem Inv.storeCell {s : State} (hi : Inv s) {a : Nat} (ha : a < s.cfg.memCapacity) (v : I64) :
    Inv (s.storeCell a v) := by
  have hcap := hi.memCapacity_le
  obtain ⟨hcfg, hmem, hlisted, hext, hfifo, hrun, hhalt⟩ := hi
  refine ⟨hcfg, State.wf_storeCell hmem (by omega) v, fun e he => ?_, ?_, hfifo, hrun, hhalt⟩
  · rw [State.storeCell_extent]
    obtain ⟨rfl, -⟩ | he := Memory.mem_write he
    · show a < _
      omega
    · have := hlisted e he
      omega
  · rw [State.storeCell_extent, State.storeCell_cfg]
    omega

/-- A CORE that is not halted may take a fault (R131, R133). -/
theorem Inv.takeFault {s : State} (hi : Inv s) (hh : s.halted = false) (c : FaultCode) : Inv (s.takeFault c) := by
  obtain ⟨hcfg, hmem, hlisted, hext, hfifo, -, -⟩ := hi
  exact ⟨hcfg, hmem, hlisted, hext, hfifo, fun h => Bool.noConfusion h, fun h => absurd (hh.symm.trans h) (by decide)⟩

/-- A CORE without a fault may halt, which ends its HostRun (R103, R104). -/
theorem Inv.halt {s : State} (hi : Inv s) (hf : s.fault = none) (r : Answer) : Inv (s.setHalted.yieldResult r) := by
  obtain ⟨hcfg, hmem, hlisted, hext, hfifo, -, -⟩ := hi
  exact ⟨hcfg, hmem, hlisted, hext, hfifo, fun h => Bool.noConfusion h, fun _ => hf⟩

/-- A program within the capacity may be loaded, with an empty FIFO and no run, HALT or fault (R30, R107). -/
theorem Inv.load {s : State} (hi : Inv s) {program : List I64} (hl : program.length ≤ s.cfg.memCapacity)
    (pc rb : I64) (pending : List Transaction) :
    Inv { s with
      mem := Memory.ofProgram program, extent := program.length, pc := pc, rb := rb, inq := [],
      halted := false, fault := none, running := false, pending := pending } := by
  have hcap := hi.memCapacity_le
  obtain ⟨hcfg, -⟩ := hi
  refine ⟨hcfg, Memory.wf_ofProgram (hl.trans hcap), fun e he => ?_, hl, fifo_within_iff.mpr fun n _ => n.zero_le,
    fun h => Bool.noConfusion h, fun _ => rfl⟩
  obtain ⟨-, hlt, -⟩ := Memory.mem_ofCells he
  rwa [Nat.zero_add] at hlt

/-- A HostRun may start where neither a fault nor HALT has ended the run (R25, R113). -/
theorem Inv.startRun {s : State} (hi : Inv s) (hf : s.fault = none) (hh : s.halted = false) :
    Inv { s with running := true } := by
  obtain ⟨hcfg, hmem, hlisted, hext, hfifo, -, hhalt⟩ := hi
  exact ⟨hcfg, hmem, hlisted, hext, hfifo, fun _ => ⟨hf, hh⟩, hhalt⟩

/-! ### The invariant under a step -/

/-- An instruction of a CORE in phase RUNNING keeps the invariant. -/
theorem Inv.exec {i : Instr} {s t : State} (hi : Inv s) (hp : s.phase = .running) (h : exec i s = .next t) : Inv t := by
  obtain ⟨hf, hh, -⟩ := phase_running_iff.mp hp
  obtain ⟨c, rfl⟩ | ⟨a, v, npc, ha, rfl⟩ | ⟨_, a, v, q, npc, -, ha, hq, rfl⟩ | ⟨_, -, -, rfl⟩ |
    ⟨_, _, npc, -, -, rfl⟩ | ⟨npc, rfl⟩ | ⟨v, npc, rfl⟩ | ⟨npc, -, rfl⟩ := exec_cases h
  · exact hi.takeFault hh c
  · exact (hi.storeCell ha v).setPc npc
  · have hpop : ∀ n, s.cfg.fifoCapacity = some n → q.length ≤ n := fun n hn => by
      have := hi.fifo_le hn
      rw [hq, List.length_cons] at this
      omega
    exact ((hi.setInq hpop).storeCell ha v).setPc npc
  · exact hi.yieldResult _
  · exact (hi.setPc npc).yieldResult _
  · exact hi.setPc npc
  · exact (hi.setRb v).setPc npc
  · exact Inv.halt hi hf .halted

theorem Inv.engineStep {s t : State} (hi : Inv s) (hp : s.phase = .running) (h : engineStep s = .next t) : Inv t := by
  obtain ⟨c, -, rfl⟩ | ⟨_, -, he⟩ := engineStep_cases h
  · obtain ⟨-, hh, -⟩ := phase_running_iff.mp hp
    exact hi.takeFault hh c
  · exact hi.exec hp he

/-- A turn of the host in a phase other than RUNNING keeps the invariant. -/
theorem Inv.hostTurn {s : State} (hi : Inv s) (hp : s.phase ≠ .running) : Inv (hostTurn s) := by
  obtain ⟨-, h⟩ | ⟨program, ts, -, hl, h⟩ | ⟨_, _, us, -, hpush, hroom⟩ | ⟨_, -, hs | hr, h⟩ | ⟨_, -, -, h⟩ :=
    hostTurn_cases s
  · rwa [h]
  · rw [h]
    exact hi.load hl _ _ ts
  · have hlen : ∀ n, s.cfg.fifoCapacity = some n → (s.inq ++ us).length ≤ n := fun n hn => by
      rw [List.length_append]
      exact hroom n hn (hi.fifo_le hn)
    obtain h | h := hpush <;> rw [h] <;> exact hi.setInq hlen
  · obtain ⟨hf, hh, -⟩ := phase_suspended_iff.mp hs
    rw [h]
    exact hi.startRun hf hh
  · exact absurd hr hp
  · rw [h]
    exact hi

/-- Settles O58: a step is a step of the engine or a turn of the host, and each keeps every clause of the invariant. -/
theorem stepKeepsInvariant : Obligations.StepKeepsInvariant := by
  intro s t hi h
  obtain ⟨hp, he⟩ | ⟨hp, rfl⟩ := step_cases h
  · exact hi.engineStep hp he
  · exact hi.hostTurn hp

/-- Settles O44: neither an instruction of the engine nor a transaction of the host writes `cfg`. -/
theorem parametersNeverChange : Obligations.ParametersNeverChange := by
  intro s t h
  obtain ⟨-, he⟩ | ⟨-, rfl⟩ := step_cases h
  · exact engineStep_cfg he
  · exact hostTurn_cfg s

end Sys2Proof.Safety

/-! ## State (10_state.md): the state a HostLoad makes, which is the state after reset -/

namespace Sys2Proof.Machine

/-- With a transaction pending, the turn of the host performs it (R121). -/
theorem hostTurn_of_pending {s : State} {x : Transaction} {ts : List Transaction} (hp : s.pending = x :: ts) :
    hostTurn s = perform x { s with pending := ts } := by
  unfold hostTurn; rw [hp]

/-- Outside RUNNING a step performs the host's next transaction (R120, R121). -/
theorem step_of_pending {s : State} {x : Transaction} {ts : List Transaction} (h : s.phase ≠ .running)
    (hp : s.pending = x :: ts) : step s = .next (perform x { s with pending := ts }) := by
  rw [step_not_running h, hostTurn_of_pending hp]

/-- A program within the capacity is accepted (R107) and replaces the instance (R30). -/
theorem hostLoad_of_le {s : State} {program : List I64} (h : program.length ≤ s.cfg.memCapacity) :
    hostLoad program s = { s with
      mem := Memory.ofProgram program, extent := program.length, pc := I64.zero, rb := I64.zero, inq := [],
      halted := false, fault := none, running := false } := if_pos h

end Sys2Proof.Machine

namespace Sys2Proof.Safety

open Sys2Proof.Machine

/-- Settles O46: the step performs the HostLoad, whose memory reads as the program does; no fault, HALT or HostRun is left,
which is phase SUSPENDED. -/
theorem hostLoadGivesResetState : Obligations.HostLoadGivesResetState := by
  intro s program ts hph hp hl
  have hstep : step s = .next (hostLoad program { s with pending := ts }) := step_of_pending hph hp
  rw [hostLoad_of_le (s := { s with pending := ts }) hl] at hstep
  exact ⟨_, hstep, Memory.read_ofProgram program, rfl, rfl, rfl, rfl, rfl, rfl,
    phase_suspended_iff.mpr ⟨rfl, rfl, rfl⟩, rfl, rfl, rfl⟩

/-- Settles O59: the default parameters are admissible, no cell is listed, the FIFO is empty, and neither a HostRun nor HALT
puts a demand on the phase. -/
theorem resetHasInvariant : Obligations.ResetHasInvariant :=
  ⟨by decide, State.wf_reset, fun _ he => absurd he List.not_mem_nil, Nat.zero_le _,
    fifo_within_iff.mpr fun n _ => n.zero_le, fun h => Bool.noConfusion h, fun _ => rfl⟩

/-- Settles O60: no cell is listed, so that each reads 0, and no fault, HALT or HostRun puts the phase off SUSPENDED. -/
theorem resetStateValues : Obligations.ResetStateValues :=
  ⟨Memory.read_nil, rfl, rfl, rfl, rfl, rfl, rfl, phase_suspended_iff.mpr ⟨rfl, rfl, rfl⟩⟩

end Sys2Proof.Safety

/-! ## Memory (20_memory.md): a total map with default 0, read by every fetch -/

namespace Sys2Proof.Machine

/-- A store changes what its own cell reads and what no other cell reads (R36). -/
theorem State.read_storeCell (s : State) (a : Nat) (v : I64) (b : Nat) :
    (s.storeCell a v).mem.read b = if b = a then v else s.mem.read b := by
  rw [State.storeCell_mem]
  split
  · next h => rw [h, Memory.read_write_same]
  · next h => exact Memory.read_write_other s.mem v h

/-- A load at an address that is not negative succeeds (R35). -/
theorem State.load_of_nonneg {s : State} {c : FaultCode} {addr : Int} (h : 0 ≤ addr) :
    s.load c addr = .ok (s.mem.read addr.toNat) := if_neg (Int.not_lt.mpr h)

/-- At a `pc` that is not negative the fetch reads live memory, and the word read is decoded (R74, R75). -/
theorem State.fetchDecode_of_nonneg {s : State} (h : 0 ≤ s.pc.val) :
    s.fetchDecode = decode (s.mem.read s.pc.val.toNat) := by
  rw [State.fetchDecode, State.load_of_nonneg h]

end Sys2Proof.Machine

namespace Sys2Proof.Safety

open Sys2Proof.Machine

/-- Memory lists no cell at or beyond the extent, so such a cell reads 0 (R34). -/
theorem Inv.read_of_extent_le {s : State} (hi : Inv s) {a : Nat} (ha : s.extent ≤ a) : s.mem.read a = I64.zero := by
  obtain ⟨-, -, hlisted, -⟩ := hi
  exact Memory.read_unlisted fun e he => Nat.ne_of_lt (Nat.lt_of_lt_of_le (hlisted e he) ha)

/-- Settles O10: an accepted HostLoad makes the memory of the program, and a store writes one cell. -/
theorem memoryIsTotalMap : Obligations.MemoryIsTotalMap := by
  refine ⟨fun program s hl i => ?_, State.read_storeCell⟩
  rw [hostLoad_of_le hl]
  exact Memory.read_ofProgram program i

/-- Settles O12: the cells at or beyond the extent are unlisted, and a store lists its own cell at most. -/
theorem storeGrowsExtent : Obligations.StoreGrowsExtent := by
  refine fun s hi => ⟨fun a => hi.read_of_extent_le, fun a v => ⟨fun ha => ⟨?_, fun b hb hba => ?_⟩, fun ha => ?_, ?_⟩⟩
  · rw [State.storeCell_extent]
    exact Nat.max_eq_right (Nat.le_succ_of_le ha)
  · rw [State.read_storeCell, if_neg (Nat.ne_of_lt hba), hi.read_of_extent_le hb]
  · rw [State.storeCell_extent]
    exact Nat.max_eq_left ha
  · rw [State.read_storeCell, if_pos rfl]

/-- Settles O11: the fetch reads live memory, which holds the value stored. -/
theorem storeIsSeenByNextFetch : Obligations.StoreIsSeenByNextFetch := by
  intro s a v npc hpc
  have hnonneg : 0 ≤ ((s.storeCell a v).setPc npc).pc.val := by rw [State.setPc_pc, hpc]; exact Int.natCast_nonneg a
  rw [State.fetchDecode_of_nonneg hnonneg, State.setPc_pc, hpc, Int.toNat_natCast, State.setPc_mem,
    State.read_storeCell, if_pos rfl]

end Sys2Proof.Safety

/-! ## Encoding (30_encoding.md): the decoder against the pseudocode of `Decode`, and the 99 words it accepts

The decoder is held to the pseudocode once (`decode_follows`). A fault of the decoder is then read off the pseudocode, which
works on digits, and an instruction is read off the digits of its word. -/

namespace Sys2Proof.Pseudocode

open Sys2Proof.Machine Sys2Proof.Safety

/-! ### The pseudocode of `Decode`, an equation per case -/

/-- The digits of the three mode fields, parameter 1 first (R51). -/
def modeDigits (n : Nat) : List Nat := [digit 2 n, digit 3 n, digit 4 n]

/-- How `Decode` ends once the reserved digits are 0: with the first fault of the mode fields, or with the instruction. -/
def verdict {α : Type} (p : α) : Option FaultCode → Except FaultCode α
  | some c => .error c
  | none => .ok p

@[simp] theorem verdict_some {α : Type} (p : α) (c : FaultCode) : verdict p (some c) = .error c := rfl

@[simp] theorem verdict_none {α : Type} (p : α) : verdict p none = .ok p := rfl

@[simp] theorem verdict_ite {α : Type} (p : α) (P : Prop) [Decidable P] (f g : Option FaultCode) :
    verdict p (if P then f else g) = if P then verdict p f else verdict p g := apply_ite (verdict p) P f g

theorem signature_eq_none {op : Nat} (h : op ∉ [1, 2, 3, 4, 5, 6, 7, 8, 9, 99]) : signature op = none := by
  simp only [List.mem_cons, List.not_mem_nil, or_false, not_or] at h
  simp [signature, h]

/-- The five rows of the signature table (R56). -/
theorem signature_cases {op : Nat} {kinds : List ParamKind} (h : signature op = some kinds) :
    kinds ∈ [[.read, .read, .write], [.write], [.read], [.read, .read], []] := by
  unfold signature at h
  split_ifs at h <;> cases h <;> decide

/-- There are at most three parameters, and only the last can be a write-target (R56). -/
theorem signature_shape {op : Nat} {kinds : List ParamKind} (h : signature op = some kinds) :
    kinds.length ≤ 3 ∧ ∀ k ∈ kinds.dropLast, k = .read := by
  have hrows : ∀ ks ∈ [[.read, .read, .write], [.write], [.read], [.read, .read], []],
      ks.length ≤ 3 ∧ ∀ k ∈ ks.dropLast, k = ParamKind.read := by decide
  exact hrows kinds (signature_cases h)

/-- The reserved digits are those above the last used mode field, so one of them is set exactly if the word has a digit
there (R61). -/
theorem reserved_iff {len : Nat} (h : len ≤ 3) (n : Nat) :
    (n / 100000 ≠ 0 ∨ ∃ d ∈ (modeDigits n).drop len, d ≠ 0) ↔ n / 10 ^ (len + 2) ≠ 0 := by
  interval_cases len <;> simp [modeDigits, digit] <;> omega

theorem decode_of_neg {w : Int} (h : w < 0) : decode w = .error .negWord := if_pos h

theorem decode_of_no_signature {n : Nat} (h : signature (n % 100) = none) : decode n = .error .badOpcode := by
  rw [decode, if_neg (Int.not_lt.mpr (Int.natCast_nonneg n))]
  simp only [Int.toNat_natCast, h]

theorem decode_of_signature {n : Nat} {kinds : List ParamKind} (h : signature (n % 100) = some kinds) :
    decode n =
      if n / 10 ^ (kinds.length + 2) ≠ 0 then .error .reservedDigit
      else verdict (n % 100, kinds.zip (modeDigits n)) (modeFault kinds (modeDigits n)) := by
  rw [← if_congr (reserved_iff (signature_shape h).1 n) rfl rfl, decode,
    if_neg (Int.not_lt.mpr (Int.natCast_nonneg n))]
  simp only [Int.toNat_natCast, h]
  rfl

/-- What a word that `Decode` accepts looks like: no negative word, no reserved digit, no fault in a mode field. -/
theorem decode_ok {w : Int} {p : Nat × List (ParamKind × Nat)} (h : decode w = .ok p) :
    ∃ (n : Nat) (kinds : List ParamKind), w = n ∧ signature (n % 100) = some kinds ∧
      n / 10 ^ (kinds.length + 2) = 0 ∧ modeFault kinds (modeDigits n) = none ∧
      p = (n % 100, kinds.zip (modeDigits n)) := by
  obtain hw | ⟨n, rfl⟩ := (lt_or_ge w 0).imp id Int.eq_ofNat_of_zero_le
  · simp [decode_of_neg hw] at h
  cases hs : signature (n % 100) with
  | none => simp [decode_of_no_signature hs] at h
  | some kinds =>
    rw [decode_of_signature hs] at h
    by_cases hr : n / 10 ^ (kinds.length + 2) = 0
    · rw [if_neg (not_not.mpr hr)] at h
      cases hf : modeFault kinds (modeDigits n) with
      | some c => simp [hf] at h
      | none =>
        rw [hf, verdict_none, Except.ok.injEq] at h
        exact ⟨n, kinds, rfl, hs, hr, hf, h.symm⟩
    · simp [hr] at h

/-- A bad digit in a used mode field is the first fault where only the last parameter can be a write-target. -/
theorem modeFault_of_bad {kinds : List ParamKind} (hk : ∀ k ∈ kinds.dropLast, k = .read) {ds : List Nat} {d : Nat}
    (hd : d ∈ ds.take kinds.length) (hbad : 2 < d) : modeFault kinds ds = some .badMode := by
  induction kinds generalizing ds with
  | nil => simp at hd
  | cons k ks ih =>
    cases ds with
    | nil => simp at hd
    | cons e es =>
      unfold modeFault
      by_cases he : 2 < e
      · rw [if_pos he]
      · have hd : d ∈ es.take ks.length := by
          rw [List.length_cons, List.take_succ_cons, List.mem_cons] at hd
          exact hd.resolve_left fun h => he (h ▸ hbad)
        have hks : ks ≠ [] := fun h => by simp [h] at hd
        rw [List.dropLast_cons_of_ne_nil hks] at hk
        have hkr : k = .read := hk k List.mem_cons_self
        rw [if_neg he, if_neg (fun h => by simp [hkr] at h)]
        exact ih (fun k' h => hk k' (List.mem_cons_of_mem _ h)) hd

/-- The mode digit of parameter `j` is in the list of the used ones. -/
theorem digit_mem_modeDigits {len j : Nat} (h1 : 1 ≤ j) (h : j ≤ len) (hlen : len ≤ 3) (n : Nat) :
    digit (j + 1) n ∈ (modeDigits n).take len := by
  have hj : j ≤ 3 := h.trans hlen
  interval_cases j <;> interval_cases len <;> simp [modeDigits]

/-- The mode digit of parameter `j` is in the list of the unused ones where the opcode has fewer parameters. -/
theorem digit_mem_drop_modeDigits {len j : Nat} (h : len < j) (hj : j ≤ 3) (n : Nat) :
    digit (j + 1) n ∈ (modeDigits n).drop len := by
  interval_cases j <;> interval_cases len <;> simp [modeDigits]

end Sys2Proof.Pseudocode

namespace Sys2Proof

open Sys2Proof.Machine Sys2Proof.Safety Sys2Proof.Pseudocode

/-! ### The decoder follows the pseudocode -/

/-- The mode a digit stands for in a parameter of the given kind. -/
def modeOf : ParamKind → Nat → Except FaultCode Mode
  | .read => readMode
  | .write => writeMode

/-- What `Decode` yields for an instruction: the opcode, and kind and mode digit of each parameter (R63). -/
def Instr.fields (i : Instr) : Nat × List (ParamKind × Nat) := (i.opcode, i.kinds.zip (i.modes.map Mode.digit))

theorem signature_opcode (i : Instr) : signature i.opcode = some i.kinds := by cases i <;> rfl

/-- One mode field: the decoder reads a mode with that digit where the pseudocode goes on to the next field, and reports the
pseudocode's fault where it does not. -/
theorem modeOf_cases (k : ParamKind) (d : Nat) :
    (∃ m, modeOf k d = .ok m ∧ m.digit = d ∧ ∀ ks ds, modeFault (k :: ks) (d :: ds) = modeFault ks ds) ∨
    ∃ c, modeOf k d = .error c ∧ ∀ ks ds, modeFault (k :: ks) (d :: ds) = some c := by
  match d, k with
  | 0, .read | 0, .write => exact .inl ⟨.position, rfl, rfl, fun _ _ => rfl⟩
  | 1, .read => exact .inl ⟨.immediate, rfl, rfl, fun _ _ => rfl⟩
  | 1, .write => exact .inr ⟨.writeImmediate, rfl, fun _ _ => rfl⟩
  | 2, .read | 2, .write => exact .inl ⟨.relative, rfl, rfl, fun _ _ => rfl⟩
  | e + 3, .read | e + 3, .write => exact .inr ⟨.badMode, rfl, fun _ _ => if_pos (Nat.le_add_left 3 e)⟩

/-- The step of the loop over the mode fields: if the rest follows the pseudocode, so does this field with the rest. -/
theorem withMode_follows {k : ParamKind} {d : Nat} {ks : List ParamKind} {ds : List Nat}
    {p : Nat × List (ParamKind × Nat)} {f : Mode → Except FaultCode Instr}
    (h : ∀ m : Mode, m.digit = d → (f m).map Instr.fields = verdict p (modeFault ks ds)) :
    (withMode (modeOf k d) f).map Instr.fields = verdict p (modeFault (k :: ks) (d :: ds)) := by
  obtain ⟨m, hm, hd, hf⟩ | ⟨c, hc, hf⟩ := modeOf_cases k d
  · rw [hm, hf]
    exact h m hd
  · rw [hc, hf]
    rfl

/-- A decoder of one signature follows the pseudocode if it checks the same reserved digits and its loop follows. -/
theorem follows_of_signature {n : Nat} {kinds : List ParamKind} (hs : signature (n % 100) = some kinds) {P : Prop}
    [Decidable P] (hP : P ↔ n / 10 ^ (kinds.length + 2) ≠ 0) {r : Except FaultCode Instr}
    (hr : r.map Instr.fields = verdict (n % 100, kinds.zip (modeDigits n)) (modeFault kinds (modeDigits n))) :
    (if P then .error .reservedDigit else r).map Instr.fields = Pseudocode.decode n := by
  rw [decode_of_signature hs, ← hr, ← if_congr hP rfl rfl]
  split <;> rfl

theorem decodeReadReadWrite_follows {n op : Nat} (hop : n % 100 = op)
    (hs : signature op = some [.read, .read, .write]) {mk : Mode → Mode → Mode → Instr}
    (hmk : ∀ m1 m2 m3, (mk m1 m2 m3).fields = (op, [(.read, m1.digit), (.read, m2.digit), (.write, m3.digit)])) :
    (decodeReadReadWrite n mk).map Instr.fields = Pseudocode.decode n := by
  refine follows_of_signature (hop ▸ hs) (by simp) ?_
  refine withMode_follows (k := .read) fun m1 h1 => withMode_follows (k := .read) fun m2 h2 =>
    withMode_follows (k := .write) fun m3 h3 => ?_
  rw [hop, modeDigits, ← h1, ← h2, ← h3]
  exact congrArg Except.ok (hmk m1 m2 m3)

theorem decodeReadRead_follows {n op : Nat} (hop : n % 100 = op) (hs : signature op = some [.read, .read])
    {mk : Mode → Mode → Instr} (hmk : ∀ m1 m2, (mk m1 m2).fields = (op, [(.read, m1.digit), (.read, m2.digit)])) :
    (decodeReadRead n mk).map Instr.fields = Pseudocode.decode n := by
  refine follows_of_signature (hop ▸ hs) (by simp [digit]; omega) ?_
  refine withMode_follows (k := .read) fun m1 h1 => withMode_follows (k := .read) fun m2 h2 => ?_
  rw [hop, modeDigits, ← h1, ← h2]
  exact congrArg Except.ok (hmk m1 m2)

theorem decodeOne_follows {n op : Nat} (hop : n % 100 = op) {k : ParamKind} (hs : signature op = some [k])
    {mk : Mode → Instr} (hmk : ∀ m1, (mk m1).fields = (op, [(k, m1.digit)])) :
    (decodeOne (modeOf k) n mk).map Instr.fields = Pseudocode.decode n := by
  refine follows_of_signature (hop ▸ hs) (by simp [digit]; omega) ?_
  refine withMode_follows fun m1 h1 => ?_
  rw [hop, modeDigits, ← h1]
  exact congrArg Except.ok (hmk m1)

theorem decodeHalt_follows {n : Nat} (hop : n % 100 = 99) :
    (decodeHalt n).map Instr.fields = Pseudocode.decode n :=
  follows_of_signature (kinds := []) (hop ▸ rfl) (by simp [digit]; omega) (by rw [hop]; rfl)

theorem decodeNat_follows (n : Nat) : (decodeNat n).map Instr.fields = Pseudocode.decode n := by
  unfold decodeNat
  split
  · next h => exact decodeReadReadWrite_follows h rfl fun _ _ _ => rfl
  split
  · next h => exact decodeReadReadWrite_follows h rfl fun _ _ _ => rfl
  split
  · next h => exact decodeOne_follows h (k := .write) rfl fun _ => rfl
  split
  · next h => exact decodeOne_follows h (k := .read) rfl fun _ => rfl
  split
  · next h => exact decodeReadRead_follows h rfl fun _ _ => rfl
  split
  · next h => exact decodeReadRead_follows h rfl fun _ _ => rfl
  split
  · next h => exact decodeReadReadWrite_follows h rfl fun _ _ _ => rfl
  split
  · next h => exact decodeReadReadWrite_follows h rfl fun _ _ _ => rfl
  split
  · next h => exact decodeOne_follows h (k := .read) rfl fun _ => rfl
  split
  · next h => exact decodeHalt_follows h
  · exact (decode_of_no_signature (signature_eq_none (by simp [*]))).symm

theorem decode_of_nonneg {w : I64} (h : 0 ≤ w.val) : decode w = decodeNat w.val.toNat := if_neg (Int.not_lt.mpr h)

/-- The decoder and the pseudocode of `Decode` agree on every cell value (R63). -/
theorem decode_follows (w : I64) : (decode w).map Instr.fields = Pseudocode.decode w.val := by
  by_cases h : w.val < 0
  · rw [decode_of_neg h, decode, if_pos h]
    rfl
  · rw [decode_of_nonneg (Int.not_lt.mp h), decodeNat_follows, Int.toNat_of_nonneg (Int.not_lt.mp h)]

/-- The decoder reports the pseudocode's fault. -/
theorem decode_eq_error {w : I64} {c : FaultCode} (h : Pseudocode.decode w.val = .error c) : decode w = .error c := by
  rw [← decode_follows] at h
  cases hw : decode w with
  | ok i => rw [hw] at h; cases h
  | error c' => rw [hw] at h; injection h with h; rw [h]

/-! ### An instruction and its word -/

/-- Decoding the word of a well-formed instruction gives it back, instruction by instruction (R51). -/
theorem decode_encode {i : Instr} (h : i.wf = true) : decode (encode i) = .ok i := by
  cases i with
  | add m1 m2 m3 => exact Laws.RoundTrip.add m1 m2 m3 h
  | mul m1 m2 m3 => exact Laws.RoundTrip.mul m1 m2 m3 h
  | inp m1 => exact Laws.RoundTrip.inp m1 h
  | out m1 => exact Laws.RoundTrip.out m1 h
  | jnz m1 m2 => exact Laws.RoundTrip.jnz m1 m2 h
  | jz m1 m2 => exact Laws.RoundTrip.jz m1 m2 h
  | lt m1 m2 m3 => exact Laws.RoundTrip.lt m1 m2 m3 h
  | eq m1 m2 m3 => exact Laws.RoundTrip.eq m1 m2 m3 h
  | arb m1 => exact Laws.RoundTrip.arb m1 h
  | halt => exact Laws.RoundTrip.halt h

/-- The digit of a mode is a fault only as that of an Immediate write-target (R60, R62). -/
theorem modeFault_digit (k : ParamKind) (m : Mode) (ks : List ParamKind) (ds : List Nat) :
    modeFault (k :: ks) (m.digit :: ds) =
      if k = .write ∧ m = .immediate then some .writeImmediate else modeFault ks ds := by
  cases k <;> cases m <;> rfl

/-- The mode fields of an instruction have a fault exactly if the instruction is not well-formed (R62). -/
theorem modeFault_modes (i : Instr) (ds : List Nat) :
    modeFault i.kinds (i.modes.map Mode.digit ++ ds) = if i.wf then none else some .writeImmediate := by
  have hnil : modeFault [] ds = none := rfl
  cases i <;> simp [Instr.kinds, Instr.modes, Instr.wf, Mode.writable, modeFault_digit, hnil]

theorem length_modes (i : Instr) : i.modes.length = i.kinds.length := by cases i <;> rfl

/-- The modes' digits are those of the word's used mode fields if they pair up with the kinds in the same way. -/
theorem modes_eq_take {i : Instr} {n : Nat} (hlen : i.kinds.length ≤ 3)
    (h : i.kinds.zip (i.modes.map Mode.digit) = i.kinds.zip (modeDigits n)) :
    i.modes.map Mode.digit = (modeDigits n).take i.kinds.length := by
  rw [List.zip_eq_zip_take_min (l₂ := modeDigits n), Nat.min_eq_left (by exact hlen), List.take_length] at h
  have hsnd := congrArg (List.map Prod.snd) h
  rwa [List.map_snd_zip (by simp [length_modes]), List.map_snd_zip (by simp)] at hsnd

theorem modesValue_eq_ofDigits (ms : List Mode) : modesValue ms = Nat.ofDigits 10 (ms.map Mode.digit) := by
  induction ms with
  | nil => rfl
  | cons m ms ih => rw [List.map_cons, Nat.ofDigits_cons, ← ih]; rfl

/-- With every reserved digit 0 the digits of the used mode fields make up the word above the opcode (R51, R61). -/
theorem ofDigits_take_modeDigits {len n : Nat} (hlen : len ≤ 3) (h : n / 10 ^ (len + 2) = 0) :
    Nat.ofDigits 10 ((modeDigits n).take len) = n / 100 := by
  interval_cases len <;> simp [modeDigits, Nat.ofDigits_cons, digit] at h ⊢ <;> omega

/-- Decoding gives `i` exactly if the word is that of `i` and `i` is well-formed (R51, R62). -/
theorem decode_ok_iff (w : I64) (i : Instr) : decode w = .ok i ↔ i.wf = true ∧ encode i = w := by
  refine ⟨fun h => ?_, fun ⟨hwf, hw⟩ => hw ▸ decode_encode hwf⟩
  have hp : Pseudocode.decode w.val = .ok i.fields := by rw [← decode_follows, h]; rfl
  obtain ⟨n, kinds, hn, hs, hr, hf, hi⟩ := Pseudocode.decode_ok hp
  obtain ⟨hop, hzip⟩ := Prod.mk.inj hi
  obtain rfl : i.kinds = kinds := by
    rw [← hop, signature_opcode] at hs
    injection hs
  obtain ⟨hlen, -⟩ := signature_shape hs
  have hmodes := modes_eq_take hlen hzip
  have hwf : i.wf = true := by
    rw [← List.take_append_drop i.kinds.length (modeDigits n), ← hmodes, modeFault_modes] at hf
    simpa using hf
  have hword : i.wordNat = n := by
    rw [Instr.wordNat, hop, modesValue_eq_ofDigits, hmodes, ofDigits_take_modeDigits hlen hr, Nat.mod_add_div]
  exact ⟨hwf, I64.ext (by rw [hn, ← hword]; rfl)⟩

/-! ### The legal words (R58) -/

/-- The modes of a write-target (R62). -/
def targetModes : List Mode := [.position, .relative]

/-- The modes of a read parameter (R54). -/
def readModes : List Mode := [.position, .immediate, .relative]

/-- The instructions of one opcode with one read parameter, in the order of their words. -/
def instrsRead (mk : Mode → Instr) : List Instr := readModes.map mk

/-- The instructions of one opcode with two read parameters. -/
def instrsReadRead (mk : Mode → Mode → Instr) : List Instr := readModes.flatMap fun m2 => instrsRead (mk · m2)

/-- The instructions of one opcode with two read parameters and a write-target. -/
def instrsReadReadWrite (mk : Mode → Mode → Mode → Instr) : List Instr :=
  targetModes.flatMap fun m3 => instrsReadRead (mk · · m3)

/-- The well-formed instructions, in the order in which the opcode table lists their words. -/
def instrs : List Instr :=
  instrsReadReadWrite .add ++ instrsReadReadWrite .mul ++ targetModes.map .inp ++ instrsRead .out ++
  instrsReadRead .jnz ++ instrsReadRead .jz ++ instrsReadReadWrite .lt ++ instrsReadReadWrite .eq ++
  instrsRead .arb ++ [.halt]

theorem legalWords_eq : legalWords = instrs.map Instr.wordNat := by decide

theorem mem_readModes (m : Mode) : m ∈ readModes := by cases m <;> decide

theorem mem_targetModes {m : Mode} : m ∈ targetModes ↔ m.writable = true := by cases m <;> decide

theorem mem_instrs {i : Instr} : i ∈ instrs ↔ i.wf = true := by
  cases i <;>
    simp [instrs, instrsReadReadWrite, instrsReadRead, instrsRead, mem_readModes, mem_targetModes, Instr.wf]

end Sys2Proof

namespace Sys2Proof.Machine

/-- A word at `pc` that does not decode is the fault of the step (R74, R75). -/
theorem step_of_decode_error {s : State} {c : FaultCode} (hrun : s.phase = .running) (hpc : 0 ≤ s.pc.val)
    (h : decode (s.mem.read s.pc.val.toNat) = .error c) : step s = .next (s.takeFault c) := by
  rw [step_running hrun, engineStep, State.fetchDecode_of_nonneg hpc, h, State.check_error]

end Sys2Proof.Machine

namespace Sys2Proof.Pseudocode

open Sys2Proof.Machine Sys2Proof.Safety

/-! ### The pseudocode of `Resolve` (R70) -/

/-- Below its first check `Resolve` follows the exact address of the parameter (R65 to R67). -/
theorem resolve_eq {s : State} {i : Nat} (k : ParamKind) (m : Mode) :
    resolve s i k m.digit =
      if maxI < s.pc.val + i then .error .pcOvf
      else if m = .immediate then .ok (rawCell s i).val
      else if address s i m < 0 then .error .eaNeg
      else if maxI < address s i m then .error .eaOvf
      else if k = .read then .ok (s.mem.read (target s i m)).val
      else if (s.cfg.memCapacity : Int) ≤ address s i m then .error .writeBeyondCapacity
      else .ok (address s i m) := by
  cases m <;> rfl

theorem resolve_read {s : State} {i : Nat} {m : Mode} :
    resolve s i .read m.digit = verdict (operand s i m).val (paramFault s i .read m) := by
  by_cases hm : m = .immediate <;>
    simp [resolve_eq, paramFault, operand, target, hm]

theorem resolve_write {s : State} {i : Nat} {m : Mode} (h : m ≠ .immediate) :
    resolve s i .write m.digit = verdict (target s i m : Int) (paramFault s i .write m) := by
  by_cases ha : address s i m < 0
  · simp [resolve_eq, paramFault, h, ha]
  · have ht : (target s i m : Int) = address s i m := Int.toNat_of_nonneg (Int.not_lt.mp ha)
    simp [resolve_eq, paramFault, h, ha, ht]

end Sys2Proof.Pseudocode

namespace Sys2Proof.Safety

open Sys2Proof.Machine Sys2Proof.Pseudocode

/-! ### The statements -/

/-- Settles O2: the digits of a word that decodes are those of its instruction, and each well-formed instruction comes back
from its word. -/
theorem decodeInvertsEncode : Obligations.DecodeInvertsEncode := decode_ok_iff

/-- Settles O1: field by field the decoder follows the pseudocode. -/
theorem decodeFollowsPseudocode : Obligations.DecodeFollowsPseudocode := by
  intro w
  rw [← decode_follows]
  cases decode w <;> rfl

/-- Settles O3: the legal words are the words of the well-formed instructions, which are the cells that decode. -/
theorem legalWordsAreThoseOfTable : Obligations.LegalWordsAreThoseOfTable := by
  refine ⟨fun w => ⟨fun ⟨i, hi⟩ => ?_, fun ⟨n, hn, hw⟩ => ?_⟩, by decide⟩
  · obtain ⟨hwf, rfl⟩ := (decode_ok_iff w i).mp hi
    exact ⟨i.wordNat, legalWords_eq ▸ List.mem_map_of_mem (mem_instrs.mpr hwf), rfl⟩
  · rw [legalWords_eq] at hn
    obtain ⟨i, hi, rfl⟩ := List.mem_map.mp hn
    exact ⟨i, (decode_ok_iff w i).mpr ⟨mem_instrs.mp hi, I64.ext hw.symm⟩⟩

/-- Settles O6: the pseudocode finds no signature; a cell that memory does not list holds 0, whose opcode is unassigned. -/
theorem unassignedOpcodeIsMalformed : Obligations.UnassignedOpcodeIsMalformed := by
  have hbad : ∀ w : I64, 0 ≤ w.val → w.val.toNat % 100 ∉ [1, 2, 3, 4, 5, 6, 7, 8, 9, 99] →
      decode w = .error .badOpcode := fun w hw hop => decode_eq_error <| by
    rw [← Int.toNat_of_nonneg hw]
    exact decode_of_no_signature (signature_eq_none hop)
  refine ⟨hbad, fun s hrun hpc hunlisted => step_of_decode_error hrun hpc ?_⟩
  rw [Memory.read_unlisted hunlisted]
  exact hbad I64.zero (Int.le_refl 0) (by decide)

/-- Settles O7: no reserved digit is set, and no field before the bad one is a write-target's. -/
theorem badModeIsMalformed : Obligations.BadModeIsMalformed := by
  intro w kinds j hw hs hr h1 hj hbad
  obtain ⟨hlen, hread⟩ := signature_shape hs
  refine decode_eq_error ?_
  rw [← Int.toNat_of_nonneg hw, decode_of_signature hs, if_neg (not_not.mpr hr),
    modeFault_of_bad hread (digit_mem_modeDigits h1 hj hlen _) hbad]
  rfl

/-- Settles O8: the digit is one above the last used mode field. -/
theorem reservedDigitIsMalformed : Obligations.ReservedDigitIsMalformed := by
  intro w kinds hw hs hd
  obtain ⟨hlen, -⟩ := signature_shape hs
  have hset : w.val.toNat / 10 ^ (kinds.length + 2) ≠ 0 := by
    refine (reserved_iff hlen _).mp (hd.imp_right fun ⟨j, hj, hj3, h⟩ => ⟨_, ?_, h⟩)
    exact digit_mem_drop_modeDigits hj hj3 _
  refine decode_eq_error ?_
  rw [← Int.toNat_of_nonneg hw, decode_of_signature hs, if_pos hset]

/-- Settles O13: the pseudocode and the resolver report the fault of the parameter, and else give its value or address. -/
theorem resolveFollowsPseudocode : Obligations.ResolveFollowsPseudocode := by
  refine fun s i m hpc => ⟨?_, fun hm => ?_⟩
  · rw [resolve_read, resolveRead_eq hpc]
    cases paramFault s i .read m <;> rfl
  · rw [resolve_write hm, resolveWrite_eq hpc]
    cases paramFault s i .write m <;> rfl

/-- Settles O4: each of the ten words is the encoding of its instruction. -/
theorem writtenOutWordsDecode : Obligations.WrittenOutWordsDecode := by
  intro w
  have hword : ∀ {v : Int} {i : Instr}, (i.wordNat : Int) = v → i.wf = true → w.val = v → decode w = .ok i :=
    fun hv hwf hw => (decode_ok_iff w _).mpr ⟨hwf, I64.ext (hv.trans hw.symm)⟩
  exact ⟨hword rfl rfl, hword rfl rfl, hword rfl rfl, hword rfl rfl, hword rfl rfl, hword rfl rfl, hword rfl rfl,
    hword rfl rfl, hword rfl rfl, hword rfl rfl⟩

/-- Settles O5: the sign is looked at before any digit, in the decoder and so in the fetch. -/
theorem negativeWordIsMalformed : Obligations.NegativeWordIsMalformed := by
  have hneg : ∀ w : I64, w.val < 0 → decode w = .error .negWord := fun w hw => decode_eq_error (decode_of_neg hw)
  exact ⟨hneg, fun s hrun hpc hw => step_of_decode_error hrun hpc (hneg _ hw)⟩

/-- Settles O9: on each word the fields before the write-target's are in order, so its Immediate mode is the fault. -/
theorem immediateTargetIsMalformed : Obligations.ImmediateTargetIsMalformed := by
  intro i h
  cases i with
  | add m1 m2 m3 | mul m1 m2 m3 | lt m1 m2 m3 | eq m1 m2 m3 =>
    obtain rfl : m3 = .immediate := by simpa [Instr.wf, Mode.writable] using h
    cases m1 <;> cases m2 <;> decide
  | inp m1 =>
    obtain rfl : m1 = .immediate := by simpa [Instr.wf, Mode.writable] using h
    decide
  | out _ | jnz _ _ | jz _ _ | arb _ | halt => cases h

end Sys2Proof.Safety

/-! ## Execution cycle (40_execution_cycle.md): the step against the pseudocode of `Step`, and the instructions' frames -/

namespace Sys2Proof.Pseudocode

open Sys2Proof.Machine Sys2Proof.Safety

/-! ### The pseudocode of `Step` (R81), stage by stage

The pseudocode raises a fault where the machine checks a stage. One lemma for each kind of check says that if the rest of the
instruction follows the pseudocode, so does the check with the rest; `exec_follows` chains them. -/

/-- `raise` in the pseudocode: a stage ends the step with its fault, or the step goes on with the stage's value. -/
def orRaise {α : Type} : Except FaultCode α → (α → StepOutcome) → StepOutcome
  | .ok a, k => k a
  | .error c, _ => .fault c

/-- Stages 3 to 5 of `Step` (R76 to R79), once the word is decoded. -/
def stages (s : State) (op : Nat) (ps : List (ParamKind × Nat)) : StepOutcome :=
  orRaise (resolveAll s 1 ps) fun p =>
    if maxI < s.pc.val + 1 + ps.length then .fault .pcOvf else execute s op p (s.pc.val + 1 + ps.length)

theorem step_of_pc_neg {s : State} (h : s.pc.val < 0) : step s = .fault .pcNeg := if_pos h

theorem step_of_decode_error {s : State} {c : FaultCode} (hpc : 0 ≤ s.pc.val)
    (h : decode (s.mem.read s.pc.val.toNat).val = .error c) : step s = .fault c := by
  rw [step, if_neg (Int.not_lt.mpr hpc), h]

theorem step_of_decode_ok {s : State} {op : Nat} {ps : List (ParamKind × Nat)} (hpc : 0 ≤ s.pc.val)
    (h : decode (s.mem.read s.pc.val.toNat).val = .ok (op, ps)) : step s = stages s op ps := by
  rw [step, if_neg (Int.not_lt.mpr hpc), stages]
  simp only [h]
  cases resolveAll s 1 ps <;> rfl

/-- The loop over the parameters raises the first parameter's fault, and else goes on with the others (R70). -/
theorem orRaise_resolveAll_cons (s : State) (i : Nat) (k : ParamKind) (d : Nat) (ps : List (ParamKind × Nat))
    (K : List Int → StepOutcome) :
    orRaise (resolveAll s i ((k, d) :: ps)) K =
      orRaise (resolve s i k d) fun v => orRaise (resolveAll s (i + 1) ps) fun vs => K (v :: vs) := by
  rw [resolveAll]
  cases resolve s i k d with
  | error c => rfl
  | ok v => cases resolveAll s (i + 1) ps <;> rfl

/-! ### The operation of an instruction -/

@[simp] theorem cell_val (x : I64) : cell x.val = x := dif_pos x.fits

@[simp] theorem storeAndAdvance_val (s : State) (a : Nat) (v npc : I64) :
    storeAndAdvance s a v.val npc.val = (s.storeCell a v).setPc npc := by
  rw [storeAndAdvance, cell_val, cell_val]
  rfl

/-- LT and EQ store 1 or 0 (R97 to R99). -/
theorem storeAndAdvance_truth (s : State) (a : Nat) (npc : I64) (P : Prop) [Decidable P] :
    storeAndAdvance s a (if P then 1 else 0) npc.val =
      (s.storeCell a (if P then I64.one else I64.zero)).setPc npc := by
  split
  · exact storeAndAdvance_val s a I64.one npc
  · exact storeAndAdvance_val s a I64.zero npc

theorem execute_in_starved {s : State} {p : List Int} {npc : Int} (h : s.inq = []) :
    execute s 3 p npc = .yield .needInput s := by
  simp only [execute, h]

theorem execute_in_popped {s : State} {a npc : Int} {v : I64} {q : List I64} (h : s.inq = v :: q) :
    execute s 3 [a] npc = .cont (storeAndAdvance (s.setInq q) a v.val npc) := by
  simp only [execute, h]
  rfl

/-- The outcome `Continue` keeps everything the phase is computed from (R14, R25). -/
theorem phase_of_execute_cont {s t : State} {op : Nat} {p : List Int} {npc : Int} (h : execute s op p npc = .cont t) :
    t.phase = s.phase := by
  unfold execute at h
  dsimp only at h
  split at h
  -- ADD, MUL, IN and ARB, each of which can also end the step; then OUT and HALT, which always do.
  case h_1 | h_2 | h_3 | h_9 =>
    split at h
    · cases h
    · injection h with h; rw [← h]; rfl
  case h_4 | h_10 => cases h
  all_goals injection h with h; rw [← h]; rfl

/-- The outcome `Continue` of a step keeps the phase. -/
theorem phase_of_step_cont {s t : State} (h : step s = .cont t) : t.phase = s.phase := by
  obtain hpc | hpc := lt_or_ge s.pc.val 0
  · rw [step_of_pc_neg hpc] at h
    cases h
  cases hd : decode (s.mem.read s.pc.val.toNat).val with
  | error c =>
    rw [step_of_decode_error hpc hd] at h
    cases h
  | ok p =>
    rw [step_of_decode_ok hpc hd, stages] at h
    cases hr : resolveAll s 1 p.2 with
    | error c =>
      rw [hr] at h
      cases h
    | ok vs =>
      rw [hr, orRaise] at h
      split at h
      · cases h
      · exact phase_of_execute_cont h

/-! ### A check of the machine against the stage of the pseudocode -/

theorem resolve_read_eq {s : State} {i : Nat} {m : Mode} (hpc : 0 ≤ s.pc.val) :
    resolve s i .read m.digit = (resolveRead s i m).map I64.val := by
  rw [(resolveFollowsPseudocode s i m hpc).1]
  cases resolveRead s i m <;> rfl

theorem resolve_write_eq {s : State} {i : Nat} {m : Mode} (hpc : 0 ≤ s.pc.val) (hm : m.writable = true) :
    resolve s i .write m.digit = (resolveWrite s i m).map Int.ofNat := by
  rw [(resolveFollowsPseudocode s i m hpc).2 (of_decide_eq_true hm)]
  cases resolveWrite s i m <;> rfl

/-- A check whose value goes into both continuations: it takes the fault that the pseudocode raises. -/
theorem check_follows {α β : Type} {s : State} {r : Except FaultCode α} {f : α → β}
    {k : α → Host.Outcome State Fault Refusal} {K : β → StepOutcome} (h : ∀ a, k a = .next (settle s (K (f a)))) :
    s.check r k = .next (settle s (orRaise (r.map f) K)) := by
  cases r with
  | ok a => exact h a
  | error c => rfl

theorem check_read_follows {s : State} (hpc : 0 ≤ s.pc.val) {i : Nat} {m : Mode} {ps : List (ParamKind × Nat)}
    {k : I64 → Host.Outcome State Fault Refusal} {K : List Int → StepOutcome}
    (h : ∀ a : I64, k a = .next (settle s (orRaise (resolveAll s (i + 1) ps) fun vs => K (a.val :: vs)))) :
    s.check (resolveRead s i m) k = .next (settle s (orRaise (resolveAll s i ((.read, m.digit) :: ps)) K)) := by
  rw [orRaise_resolveAll_cons, resolve_read_eq hpc]
  exact check_follows h

theorem check_write_follows {s : State} (hpc : 0 ≤ s.pc.val) {i : Nat} {m : Mode} (hm : m.writable = true)
    {ps : List (ParamKind × Nat)} {k : Nat → Host.Outcome State Fault Refusal} {K : List Int → StepOutcome}
    (h : ∀ a : Nat, k a = .next (settle s (orRaise (resolveAll s (i + 1) ps) fun vs => K (a :: vs)))) :
    s.check (resolveWrite s i m) k = .next (settle s (orRaise (resolveAll s i ((.write, m.digit) :: ps)) K)) := by
  rw [orRaise_resolveAll_cons, resolve_write_eq hpc hm]
  exact check_follows h

/-- A checked value (R129): the machine narrows it where the pseudocode asks whether it fits. -/
theorem check_narrow_follows {s : State} {c : FaultCode} {v : Int} {k : I64 → Host.Outcome State Fault Refusal}
    {o : StepOutcome} (h : ∀ x : I64, x.val = v → k x = .next (settle s o)) :
    s.check (narrow c v) k = .next (settle s (if ¬ Fits v then .fault c else o)) := by
  by_cases hv : Fits v
  · rw [narrow_fits hv, if_neg (not_not.mpr hv), State.check_ok]
    exact h _ rfl
  · rw [narrow_not_fits hv, if_pos hv]
    rfl

/-- The next `pc` (R77), which is never below the range of I64. -/
theorem check_nextPc_follows {s : State} {n : Nat} {k : I64 → Host.Outcome State Fault Refusal} {K : Int → StepOutcome}
    (h : ∀ npc : I64, k npc = .next (settle s (K npc.val))) :
    s.check (nextPc s n) k =
      .next (settle s (if maxI < s.pc.val + 1 + n then .fault .pcOvf else K (s.pc.val + 1 + n))) := by
  have hbig : maxI < s.pc.val + 1 + n ↔ ¬ Fits (s.pc.val + 1 + n) := by
    have := s.pc.bounds
    simp only [Fits, minI]
    omega
  rw [if_congr hbig rfl rfl]
  exact check_narrow_follows fun npc hn => hn ▸ h npc

/-! ### The instructions -/

/-- ADD, MUL, LT and EQ follow the pseudocode if their values do. -/
theorem storeBinary_follows {value : I64 → I64 → Except FaultCode I64} {s : State} {m1 m2 m3 : Mode} {op : Nat}
    (hpc : 0 ≤ s.pc.val) (hm : m3.writable = true)
    (hv : ∀ (a b : I64) (c : Nat) (npc : I64), (s.check (value a b) fun v => .next ((s.storeCell c v).setPc npc)) =
      .next (settle s (execute s op [a.val, b.val, c] npc.val))) :
    storeBinary value m1 m2 m3 s =
      .next (settle s (stages s op [(.read, m1.digit), (.read, m2.digit), (.write, m3.digit)])) :=
  check_read_follows hpc fun a => check_read_follows hpc fun b => check_write_follows hpc hm fun c =>
    check_nextPc_follows fun npc => hv a b c npc

/-- JNZ and JZ follow the pseudocode if their conditions do. -/
theorem jumpIf_follows {taken : I64 → Bool} {s : State} {m1 m2 : Mode} {op : Nat} (hpc : 0 ≤ s.pc.val)
    (hv : ∀ a b npc : I64, s.setPc (if taken a then b else npc) = settle s (execute s op [a.val, b.val] npc.val)) :
    jumpIf taken m1 m2 s = .next (settle s (stages s op [(.read, m1.digit), (.read, m2.digit)])) :=
  check_read_follows hpc fun a => check_read_follows hpc fun b => check_nextPc_follows fun npc =>
    congrArg _ (hv a b npc)

/-- IN, whose FIFO is looked at last (R89). -/
theorem execInp_follows {s : State} {m1 : Mode} (hpc : 0 ≤ s.pc.val) (hm : m1.writable = true) :
    execInp m1 s = .next (settle s (stages s 3 [(.write, m1.digit)])) := by
  refine check_write_follows hpc hm fun a => check_nextPc_follows fun npc => ?_
  show _ = Host.Outcome.next (settle s (execute s 3 [(a : Int)] npc.val))
  cases hq : s.inq with
  | nil => rw [execute_in_starved hq]; rfl
  | cons v q => rw [execute_in_popped hq, storeAndAdvance_val]; rfl

/-- Every well-formed instruction at a non-negative `pc` does what stages 3 to 5 of the pseudocode do (R76 to R79). -/
theorem exec_follows {i : Instr} {s : State} (hpc : 0 ≤ s.pc.val) (hwf : i.wf = true) :
    exec i s = .next (settle s (stages s i.opcode (i.kinds.zip (i.modes.map Mode.digit)))) := by
  cases i with
  | add m1 m2 m3 | mul m1 m2 m3 =>
    refine storeBinary_follows hpc hwf fun a b c npc => check_narrow_follows fun v hv => ?_
    rw [← storeAndAdvance_val, hv]
    rfl
  | lt m1 m2 m3 | eq m1 m2 m3 =>
    exact storeBinary_follows hpc hwf fun a b c npc => congrArg _ (storeAndAdvance_truth s c npc _).symm
  | jnz m1 m2 =>
    refine jumpIf_follows hpc fun a b npc => ?_
    show _ = s.setPc (if a.val ≠ 0 then cell b.val else cell npc.val)
    simp
  | jz m1 m2 =>
    refine jumpIf_follows hpc fun a b npc => ?_
    show _ = s.setPc (if a.val = 0 then cell b.val else cell npc.val)
    simp
  | inp m1 => exact execInp_follows hpc hwf
  | out m1 =>
    refine check_read_follows hpc fun a => check_nextPc_follows fun npc => ?_
    show _ = Host.Outcome.next ((s.setPc (cell npc.val)).yieldResult (.output (cell a.val)))
    rw [cell_val, cell_val]
  | arb m1 =>
    refine check_read_follows hpc fun a => check_nextPc_follows fun npc => check_narrow_follows fun v hv => ?_
    show _ = Host.Outcome.next ((s.setRb (cell (s.rb.val + a.val))).setPc (cell npc.val))
    rw [← hv, cell_val, cell_val]
  | halt =>
    refine check_nextPc_follows fun npc => ?_
    show _ = Host.Outcome.next ((s.setHalted.setPc (cell npc.val)).yieldResult .halted)
    rw [cell_val]

end Sys2Proof.Pseudocode

namespace Sys2Proof.Machine

/-- In phase RUNNING a word at `pc` that decodes is executed (R74, R75). -/
theorem step_of_decode_ok {s : State} {i : Instr} (hrun : s.phase = .running) (hpc : 0 ≤ s.pc.val)
    (h : decode (s.mem.read s.pc.val.toNat) = .ok i) : step s = exec i s := by
  rw [step_running hrun, engineStep, State.fetchDecode_of_nonneg hpc, h, State.check_ok]

/-- In phase RUNNING a negative `pc` is the fault of the step (R74). -/
theorem step_of_pc_neg {s : State} (hrun : s.phase = .running) (hpc : s.pc.val < 0) :
    step s = .next (s.takeFault .pcNeg) := by
  rw [step_running hrun, engineStep, State.fetchDecode, State.load, if_pos hpc]
  rfl

/-! ### What an instruction does to the HostRun -/

theorem running_of_execHalt {s t : State} (h : execHalt s = .next t) : t.running = false := by
  obtain ⟨_, rfl⟩ | ⟨_, -, rfl⟩ := execHalt_cases h <;> rfl

theorem running_of_execOut {m1 : Mode} {s t : State} (h : execOut m1 s = .next t) : t.running = false := by
  obtain ⟨_, rfl⟩ | ⟨_, _, -, -, rfl⟩ := execOut_cases h <;> rfl

theorem running_of_execInp_starved {m1 : Mode} {s t : State} (hq : s.inq = []) (h : execInp m1 s = .next t) :
    t.running = false := by
  obtain ⟨_, rfl⟩ | ⟨-, rfl⟩ | ⟨_, _, _, _, -, -, hq', -⟩ := execInp_cases h
  · rfl
  · rfl
  · simp [hq] at hq'

/-- An instruction after which the HostRun goes on is none of the three at which the engine yields (R80). -/
theorem exec_goes_on {i : Instr} {s t : State} (h : exec i s = .next t) (hrun : t.phase = .running) :
    i ≠ .halt ∧ (∀ m1, i ≠ .out m1) ∧ (s.inq = [] → ∀ m1, i ≠ .inp m1) := by
  obtain ⟨-, -, hr⟩ := phase_running_iff.mp hrun
  have hends : t.running ≠ false := by simp [hr]
  refine ⟨?_, fun m1 => ?_, fun hq m1 => ?_⟩ <;> rintro rfl
  · exact hends (running_of_execHalt h)
  · exact hends (running_of_execOut h)
  · exact hends (running_of_execInp_starved hq h)

/-! ### The cells a step may change -/

/-- From `s` to `t` no cell changes but the one that the target `r` resolves to, and the extent grows at most past it. -/
def StoresOnlyTo (r : Except FaultCode Nat) (s t : State) : Prop :=
  (∀ a, r = .ok a →
    (t.extent = s.extent ∨ t.extent = max s.extent (a + 1)) ∧ ∀ b, b ≠ a → t.mem.read b = s.mem.read b) ∧
  ∀ c, r = .error c → t.extent = s.extent ∧ ∀ b, t.mem.read b = s.mem.read b

theorem storesOnlyTo_of_unchanged {r : Except FaultCode Nat} {s t : State} (hm : t.mem = s.mem)
    (he : t.extent = s.extent) : StoresOnlyTo r s t :=
  ⟨fun _ _ => ⟨.inl he, fun _ _ => by rw [hm]⟩, fun _ _ => ⟨he, fun _ => by rw [hm]⟩⟩

theorem storesOnlyTo_of_store {r : Except FaultCode Nat} {s t : State} {a : Nat} {v : I64} (hr : r = .ok a)
    (hm : t.mem = s.mem.write a v) (he : t.extent = max s.extent (a + 1)) : StoresOnlyTo r s t := by
  subst hr
  refine ⟨fun a' ha => ?_, fun c hc => by cases hc⟩
  injection ha with ha
  subst ha
  exact ⟨.inr he, fun b hb => by rw [hm, Memory.read_write_other _ _ hb]⟩

end Sys2Proof.Machine

namespace Sys2Proof.Safety

open Sys2Proof.Machine

/-! ### The statements -/

/-- Settles O36: the fetch, the decoder and each instruction follow the pseudocode, fault by fault. -/
theorem stepFollowsPseudocode : Obligations.StepFollowsPseudocode := by
  intro s hrun
  obtain hpc | hpc := lt_or_ge s.pc.val 0
  · rw [step_of_pc_neg hrun hpc, Pseudocode.step_of_pc_neg hpc]
    rfl
  have hdec := decode_follows (s.mem.read s.pc.val.toNat)
  cases h : decode (s.mem.read s.pc.val.toNat) with
  | error c =>
    rw [h] at hdec
    rw [step_of_decode_error hrun hpc h, Pseudocode.step_of_decode_error hpc hdec.symm]
    rfl
  | ok i =>
    rw [h] at hdec
    obtain ⟨hwf, -⟩ := (decode_ok_iff _ i).mp h
    rw [step_of_decode_ok hrun hpc h, Pseudocode.step_of_decode_ok hpc hdec.symm]
    exact Pseudocode.exec_follows hpc hwf

/-- A HostRun that has ended is followed no further. -/
theorem runToEnd_of_ended {s : State} (h : s.running = false) (fuel : Nat) : runToEnd fuel s = some s := by
  cases fuel <;> simp [runToEnd, h]

/-- In phase RUNNING the HostRun is followed by one step, which is that of the pseudocode. -/
theorem runToEnd_of_running {s : State} (h : s.phase = .running) (fuel : Nat) :
    runToEnd (fuel + 1) s = runToEnd fuel (Pseudocode.settle s (Pseudocode.step s)) := by
  obtain ⟨-, -, hr⟩ := phase_running_iff.mp h
  rw [runToEnd, if_pos hr, stepFollowsPseudocode s h]

/-- Settles O37: by induction on the number of steps; `Continue` stays in phase RUNNING, a result or a fault ends the run. -/
theorem hostRunFollowsPseudocode : Obligations.HostRunFollowsPseudocode := by
  intro fuel
  induction fuel with
  | zero =>
    intro s hrun
    obtain ⟨-, -, hr⟩ := phase_running_iff.mp hrun
    exact if_pos hr
  | succ fuel ih =>
    intro s hrun
    rw [runToEnd_of_running hrun, Pseudocode.hostRunLoop]
    cases h : Pseudocode.step s with
    | cont t => exact ih t ((Pseudocode.phase_of_step_cont h).trans hrun)
    | yield r t => exact runToEnd_of_ended rfl fuel
    | fault c => exact runToEnd_of_ended rfl fuel

/-- Settles O38: the engine answers the state of the pseudocode, the host that of its turn. -/
theorem stepAlwaysAnswers : Obligations.StepAlwaysAnswers := by
  intro s
  by_cases hrun : s.phase = .running
  · exact ⟨_, stepFollowsPseudocode s hrun⟩
  · exact ⟨_, step_not_running hrun⟩

/-- Settles O35: the fetch gives `i`, which the decoder accepts only if it is well-formed. -/
theorem stepRunsDecodedInstruction : Obligations.StepRunsDecodedInstruction := by
  intro s i hrun hpc h
  obtain ⟨hwf, -⟩ := (decode_ok_iff _ i).mp h
  exact ⟨step_of_decode_ok hrun hpc h, hwf⟩

/-- Settles O29: either a fault is taken, or the one store goes to the cell that the target resolves to. -/
theorem storingInstructionsFrame : Obligations.StoringInstructionsFrame := by
  intro m1 m2 m3 s t h
  have hcases : (∃ c, t = s.takeFault c) ∨
      ∃ a v npc, resolveWrite s 3 m3 = .ok a ∧ t = (s.storeCell a v).setPc npc := by
    obtain h | h | h | h := h <;>
      exact (storeBinary_cases h).imp_right fun ⟨_, _, a, npc, v, _, _, ha, _, _, ht⟩ => ⟨a, v, npc, ha, ht⟩
  obtain ⟨c, rfl⟩ | ⟨a, v, npc, ha, rfl⟩ := hcases
  · obtain ⟨hok, herr⟩ := storesOnlyTo_of_unchanged (r := resolveWrite s 3 m3) (s := s) (t := s.takeFault c) rfl rfl
    exact ⟨rfl, rfl, rfl, rfl, rfl, hok, herr, .inl ⟨c, rfl⟩⟩
  · obtain ⟨hok, herr⟩ := storesOnlyTo_of_store (s := s) (t := (s.storeCell a v).setPc npc) ha rfl rfl
    exact ⟨rfl, rfl, rfl, rfl, rfl, hok, herr, .inr ⟨rfl, rfl, rfl⟩⟩

/-- Settles O30: a fault and `NeedInput` store nothing; else the oldest value is popped into the target's cell. -/
theorem inFrame : Obligations.InFrame := by
  intro m1 s t h
  obtain ⟨c, rfl⟩ | ⟨-, rfl⟩ | ⟨a, npc, v, q, ha, -, hq, rfl⟩ := execInp_cases h
  · obtain ⟨hok, herr⟩ := storesOnlyTo_of_unchanged (r := resolveWrite s 1 m1) (s := s) (t := s.takeFault c) rfl rfl
    exact ⟨rfl, rfl, rfl, rfl, .inl rfl, hok, herr, .inl ⟨c, rfl⟩⟩
  · obtain ⟨hok, herr⟩ :=
      storesOnlyTo_of_unchanged (r := resolveWrite s 1 m1) (s := s) (t := s.yieldResult .needInput) rfl rfl
    exact ⟨rfl, rfl, rfl, rfl, .inl rfl, hok, herr, .inr ⟨rfl, .inr ⟨rfl, rfl⟩⟩⟩
  · obtain ⟨hok, herr⟩ :=
      storesOnlyTo_of_store (s := s) (t := ((s.setInq q).storeCell a v).setPc npc) ha rfl rfl
    exact ⟨rfl, rfl, rfl, rfl, .inr ⟨v, hq⟩, hok, herr, .inr ⟨rfl, .inl ⟨rfl, rfl⟩⟩⟩

/-- Settles O31: either a fault is taken, or `pc` alone is written. -/
theorem jumpFrame : Obligations.JumpFrame := by
  intro m1 m2 s t h
  have hcases : (∃ c, t = s.takeFault c) ∨ ∃ npc, t = s.setPc npc := by
    obtain h | h := h <;> exact (jumpIf_cases h).imp_right fun ⟨_, _, _, _, _, _, ht⟩ => ⟨_, ht⟩
  obtain ⟨c, rfl⟩ | ⟨npc, rfl⟩ := hcases
  · exact ⟨fun _ => rfl, rfl, rfl, rfl, rfl, rfl, rfl, .inl ⟨c, rfl⟩⟩
  · exact ⟨fun _ => rfl, rfl, rfl, rfl, rfl, rfl, rfl, .inr ⟨rfl, rfl, rfl⟩⟩

/-- Settles O32: either a fault is taken, or `pc` is written and the operand is the one result. -/
theorem outFrame : Obligations.OutFrame := by
  intro m1 s t h
  obtain ⟨c, rfl⟩ | ⟨a, npc, -, -, rfl⟩ := execOut_cases h
  · exact ⟨fun _ => rfl, rfl, rfl, rfl, rfl, rfl, rfl, .inl ⟨c, rfl⟩⟩
  · exact ⟨fun _ => rfl, rfl, rfl, rfl, rfl, rfl, rfl, .inr ⟨rfl, rfl, a, rfl⟩⟩

/-- Settles O33: either a fault is taken, or `rb` and `pc` alone are written. -/
theorem arbFrame : Obligations.ArbFrame := by
  intro m1 s t h
  obtain ⟨c, rfl⟩ | ⟨_, npc, v, -, -, -, rfl⟩ := execArb_cases h
  · exact ⟨fun _ => rfl, rfl, rfl, rfl, rfl, rfl, .inl ⟨c, rfl⟩⟩
  · exact ⟨fun _ => rfl, rfl, rfl, rfl, rfl, rfl, .inr ⟨rfl, rfl, rfl⟩⟩

/-- Settles O34: either PC_OVF is taken, or `halted` and `pc` are written and the result is `Halted`. -/
theorem haltFrame : Obligations.HaltFrame := by
  intro s t h
  obtain ⟨c, rfl⟩ | ⟨npc, -, rfl⟩ := execHalt_cases h
  · exact ⟨fun _ => rfl, rfl, rfl, rfl, rfl, rfl, .inl ⟨c, rfl⟩⟩
  · exact ⟨fun _ => rfl, rfl, rfl, rfl, rfl, rfl, .inr ⟨rfl, rfl, rfl, rfl⟩⟩

/-- Settles O39: a store, a pop, a jump or a new `rb` leaves the phase and the results as they are, so the HostRun goes on. -/
theorem engineYieldsAtThreePoints : Obligations.EngineYieldsAtThreePoints := by
  intro s t hrun h
  obtain ⟨hf, hh, hr⟩ := phase_running_iff.mp hrun
  rw [step_running hrun] at h
  obtain ⟨c, -, rfl⟩ | ⟨i, hi, he⟩ := engineStep_cases h
  · exact .inr (.inr (.inr (.inr (phase_faulted_iff.mpr (Option.some_ne_none _)))))
  rw [hi]
  simp only [ne_eq, Except.ok.injEq]
  have goesOn : t.phase = s.phase → t.results = s.results →
      t.phase = .running ∧ t.results = s.results ∧ i ≠ .halt ∧ (∀ m1, i ≠ .out m1) ∧
        (s.inq = [] → ∀ m1, i ≠ .inp m1) := fun hp hres => ⟨hp.trans hrun, hres, exec_goes_on he (hp.trans hrun)⟩
  obtain ⟨c, rfl⟩ | ⟨_, _, _, -, rfl⟩ | ⟨_, _, _, _, _, -, -, -, rfl⟩ | ⟨m1, rfl, hq, rfl⟩ |
    ⟨m1, a, npc, rfl, hn, rfl⟩ | ⟨_, rfl⟩ | ⟨_, _, rfl⟩ | ⟨npc, rfl, rfl⟩ := exec_cases he
  · exact .inr (.inr (.inr (.inr (phase_faulted_iff.mpr (Option.some_ne_none _)))))
  · exact .inl (goesOn rfl rfl)
  · exact .inl (goesOn rfl rfl)
  · exact .inr (.inr (.inl ⟨m1, rfl, hq, phase_suspended_iff.mpr ⟨hf, hh, rfl⟩, rfl⟩))
  · exact .inr (.inl ⟨m1, a, rfl, phase_suspended_iff.mpr ⟨hf, hh, rfl⟩, rfl, hn⟩)
  · exact .inl (goesOn rfl rfl)
  · exact .inl (goesOn rfl rfl)
  · exact .inr (.inr (.inr (.inl ⟨rfl, phase_halted_iff.mpr ⟨hf, rfl⟩, rfl⟩)))

/-- Settles O41: only a store writes a cell, only ARB `rb`, only HALT `halted`, and only IN pops. -/
theorem oneWritePerInstruction : Obligations.OneWritePerInstruction := by
  intro s t hrun h
  rw [step_running hrun] at h
  obtain ⟨_, -, rfl⟩ | ⟨i, -, he⟩ := engineStep_cases h
  · exact ⟨.inl rfl, .inl rfl, .inl rfl⟩
  obtain ⟨_, rfl⟩ | ⟨a, v, _, ha, rfl⟩ | ⟨_, a, v, _, _, -, ha, hq, rfl⟩ | ⟨_, -, -, rfl⟩ |
    ⟨_, _, _, -, -, rfl⟩ | ⟨_, rfl⟩ | ⟨_, _, rfl⟩ | ⟨_, -, rfl⟩ := exec_cases he
  · exact ⟨.inl rfl, .inl rfl, .inl rfl⟩
  · exact ⟨.inr ⟨a, v, ha, rfl⟩, .inl rfl, .inl rfl⟩
  · exact ⟨.inr ⟨a, v, ha, rfl⟩, .inl rfl, .inr ⟨v, hq⟩⟩
  · exact ⟨.inl rfl, .inl rfl, .inl rfl⟩
  · exact ⟨.inl rfl, .inl rfl, .inl rfl⟩
  · exact ⟨.inl rfl, .inl rfl, .inl rfl⟩
  · exact ⟨.inl rfl, .inr rfl, .inl rfl⟩
  · exact ⟨.inl rfl, .inl rfl, .inl rfl⟩

end Sys2Proof.Safety

/-! ## Arithmetic (41_arithmetic.md): ADD, MUL and the checked overflow

Stages 3 and 4 of an instruction are a chain of checks, and `resolutionFault` names the first one that fails. Each check is
turned into the fault it can take (`State.orFault`); the chain is then one such fault, and what follows it is the operation. -/

namespace Sys2Proof.Machine

open Sys2Proof.Safety

/-! ### Stages 3 and 4 of an instruction (R70, R77) -/

/-- Take the fault, where there is one, and else go on (R73, R82). -/
def State.orFault (s : State) (f : Option FaultCode) (o : Host.Outcome State Fault Refusal) :
    Host.Outcome State Fault Refusal :=
  match f with
  | some c => .next (s.takeFault c)
  | none => o

@[simp] theorem State.orFault_none (s : State) (o : Host.Outcome State Fault Refusal) : s.orFault none o = o := rfl

@[simp] theorem State.orFault_some (s : State) (c : FaultCode) (o : Host.Outcome State Fault Refusal) :
    s.orFault (some c) o = .next (s.takeFault c) := rfl

/-- Of two stages the fault of the first one is taken first. -/
theorem State.orFault_or (s : State) (f g : Option FaultCode) (o : Host.Outcome State Fault Refusal) :
    s.orFault (f.or g) o = s.orFault f (s.orFault g o) := by
  cases f <;> rfl

/-- The fault of stage 4: the next `pc` of an instruction with `n` parameters exceeds `2^63 - 1` (R77). -/
def nextPcFault (s : State) (n : Nat) : Option FaultCode := if maxI < s.pc.val + 1 + n then some .pcOvf else none

theorem paramsFault_cons (s : State) (i : Nat) (k : ParamKind) (ks : List ParamKind) (m : Mode) (ms : List Mode) :
    paramsFault s i (k :: ks) (m :: ms) = (paramFault s i k m).or (paramsFault s (i + 1) ks ms) := by
  rw [paramsFault]
  cases paramFault s i k m <;> rfl

@[simp] theorem paramsFault_nil (s : State) (i : Nat) : paramsFault s i [] [] = none := rfl

theorem resolutionFault_eq_or (s : State) (i : Instr) :
    resolutionFault s i = (paramsFault s 1 i.kinds i.modes).or (nextPcFault s i.numParams) := by
  rw [resolutionFault]
  cases paramsFault s 1 i.kinds i.modes <;> rfl

theorem check_resolveRead {s : State} (hpc : 0 ≤ s.pc.val) (i : Nat) (m : Mode)
    (k : I64 → Host.Outcome State Fault Refusal) :
    s.check (resolveRead s i m) k = s.orFault (paramFault s i .read m) (k (operand s i m)) := by
  rw [resolveRead_eq hpc]
  cases paramFault s i .read m <;> rfl

theorem check_resolveWrite {s : State} (hpc : 0 ≤ s.pc.val) (i : Nat) (m : Mode)
    (k : Nat → Host.Outcome State Fault Refusal) :
    s.check (resolveWrite s i m) k = s.orFault (paramFault s i .write m) (k (target s i m)) := by
  rw [resolveWrite_eq hpc]
  cases paramFault s i .write m <;> rfl

/-- The next `pc` is the cell value of `pc + 1 + n`, which is looked at only where it fits (R77). -/
theorem check_nextPc (s : State) (n : Nat) (k : I64 → Host.Outcome State Fault Refusal) :
    s.check (nextPc s n) k = s.orFault (nextPcFault s n) (k (Pseudocode.cell (s.pc.val + 1 + n))) := by
  rw [nextPc_eq, nextPcFault]
  split
  · rfl
  · next h =>
    have hfits : Fits (s.pc.val + 1 + n) := by
      have := s.pc.bounds
      simp only [Fits, minI]
      omega
    rw [Pseudocode.cell, dif_pos hfits]
    rfl

/-! ### The instructions with two operands and a target: ADD, MUL, LT and EQ -/

section Storing

variable {i : Instr} {m1 m2 m3 : Mode} {s : State} {value : I64 → I64 → Except FaultCode I64}

/-- Stages 3 and 4 take the first fault of the resolution, then the value is computed and stored (R81). -/
theorem storeBinary_eq (hk : i.kinds = [.read, .read, .write]) (hm : i.modes = [m1, m2, m3]) (hpc : 0 ≤ s.pc.val) :
    storeBinary value m1 m2 m3 s = s.orFault (resolutionFault s i)
      (s.check (value (operand s 1 m1) (operand s 2 m2)) fun v =>
        .next ((s.storeCell (target s 3 m3) v).setPc (Pseudocode.cell (s.pc.val + 1 + 3)))) := by
  have hn : i.numParams = 3 := congrArg List.length hk
  rw [storeBinary, check_resolveRead hpc, check_resolveRead hpc, check_resolveWrite hpc, check_nextPc,
    resolutionFault_eq_or, hk, hm, hn]
  simp only [paramsFault_cons, paramsFault_nil, State.orFault_or, State.orFault_none]
  rfl

/-- A fault of the resolution comes before the operation. -/
theorem storeBinary_of_resolutionFault (hk : i.kinds = [.read, .read, .write]) (hm : i.modes = [m1, m2, m3])
    (hpc : 0 ≤ s.pc.val) {c : FaultCode} (hr : resolutionFault s i = some c) :
    storeBinary value m1 m2 m3 s = .next (s.takeFault c) := by
  rw [storeBinary_eq hk hm hpc, hr, State.orFault_some]

/-- A value that cannot be formed is the fault of the instruction, and nothing is stored (R88). -/
theorem storeBinary_of_value_error (hk : i.kinds = [.read, .read, .write]) (hm : i.modes = [m1, m2, m3])
    (hpc : 0 ≤ s.pc.val) (hr : resolutionFault s i = none) {c : FaultCode}
    (hv : value (operand s 1 m1) (operand s 2 m2) = .error c) :
    storeBinary value m1 m2 m3 s = .next (s.takeFault c) := by
  rw [storeBinary_eq hk hm hpc, hr, hv, State.orFault_none, State.check_error]

/-- A value that is formed goes into the target's cell, and `pc` advances by 4 (R77, R85, R86). -/
theorem storeBinary_of_value_ok (hk : i.kinds = [.read, .read, .write]) (hm : i.modes = [m1, m2, m3])
    (hpc : 0 ≤ s.pc.val) (hr : resolutionFault s i = none) {v npc : I64}
    (hv : value (operand s 1 m1) (operand s 2 m2) = .ok v) (hn : npc.val = s.pc.val + 4) :
    storeBinary value m1 m2 m3 s = .next ((s.storeCell (target s 3 m3) v).setPc npc) := by
  have hnpc : s.pc.val + 1 + 3 = npc.val := by omega
  rw [storeBinary_eq hk hm hpc, hr, hv, State.orFault_none, State.check_ok, hnpc, Pseudocode.cell_val]

end Storing

/-! ### ARB -/

/-- Stages 3 and 4 take the first fault of the resolution, then the sum with the old `rb` is computed and written (R101). -/
theorem execArb_eq {s : State} (hpc : 0 ≤ s.pc.val) (m1 : Mode) :
    execArb m1 s = s.orFault (resolutionFault s (.arb m1))
      (s.check (arbValue s.rb (operand s 1 m1)) fun v =>
        .next ((s.setRb v).setPc (Pseudocode.cell (s.pc.val + 1 + 1)))) := by
  rw [execArb, check_resolveRead hpc, check_nextPc, resolutionFault_eq_or]
  simp only [Instr.kinds, Instr.modes, paramsFault_cons, paramsFault_nil, State.orFault_or, State.orFault_none]
  rfl

/-- Where the sum with `rb` does not fit, ARB takes ALU_OVF (R88, R101). -/
theorem execArb_of_not_fits {s : State} {m1 : Mode} (hpc : 0 ≤ s.pc.val) (hr : resolutionFault s (.arb m1) = none)
    (hv : ¬ Fits (s.rb.val + (operand s 1 m1).val)) : execArb m1 s = .next (s.takeFault .aluOvf) := by
  rw [execArb_eq hpc, hr, State.orFault_none, arbValue, narrow_not_fits hv, State.check_error]

/-! ### The values of ADD and MUL as numbers -/

theorem addValue_eq {a b : I64} {x y : Int} (h : a.val = x ∧ b.val = y) : addValue a b = narrow .aluOvf (x + y) := by
  obtain ⟨rfl, rfl⟩ := h
  rfl

theorem mulValue_eq {a b : I64} {x y : Int} (h : a.val = x ∧ b.val = y) : mulValue a b = narrow .aluOvf (x * y) := by
  obtain ⟨rfl, rfl⟩ := h
  rfl

end Sys2Proof.Machine

namespace Sys2Proof.Safety

open Sys2Proof.Machine

/-- The words of an instruction with two operands and a target: the digits of the three modes above the opcode, and the
target's mode is not Immediate (R51, R62). -/
theorem decode_storing_iff {i : Instr} {m1 m2 m3 : Mode} (hm : i.modes = [m1, m2, m3]) (hwf : i.wf = m3.writable)
    (w : I64) :
    decode w = .ok i ↔
      m3 ≠ .immediate ∧ w.val = i.opcode + 100 * m1.digit + 1000 * m2.digit + 10000 * m3.digit := by
  have hword : encode i = w ↔ w.val = i.opcode + 100 * m1.digit + 1000 * m2.digit + 10000 * m3.digit := by
    have hval : (encode i).val = i.opcode + 100 * modesValue [m1, m2, m3] := by rw [← hm]; rfl
    rw [I64.ext_iff, hval]
    simp only [modesValue]
    omega
  rw [decode_ok_iff, hwf, hword, Mode.writable, decide_eq_true_iff]

/-- Settles O16: after the resolution the sum is the value to be stored where it fits, and ALU_OVF where it does not. -/
theorem addRule : Obligations.AddRule := by
  refine ⟨fun m1 m2 m3 s hpc => ⟨fun v npc hr hv hn => ?_, fun hr hv => ?_, fun c hr => ?_⟩,
    fun m1 m2 m3 w => decode_storing_iff rfl rfl w, fun m1 m2 => immediateTargetIsMalformed _ rfl⟩
  · exact storeBinary_of_value_ok rfl rfl hpc hr (narrow_of_val hv) hn
  · exact storeBinary_of_value_error rfl rfl hpc hr (narrow_not_fits hv)
  · exact storeBinary_of_resolutionFault rfl rfl hpc hr

/-- Settles O17: after the resolution the product is the value to be stored where it fits, and ALU_OVF where it does not. -/
theorem mulRule : Obligations.MulRule := by
  refine ⟨fun m1 m2 m3 s hpc => ⟨fun v npc hr hv hn => ?_, fun hr hv => ?_, fun c hr => ?_⟩,
    fun m1 m2 m3 w => decode_storing_iff rfl rfl w, fun m1 m2 => immediateTargetIsMalformed _ rfl⟩
  · exact storeBinary_of_value_ok rfl rfl hpc hr (narrow_of_val hv) hn
  · exact storeBinary_of_value_error rfl rfl hpc hr (narrow_not_fits hv)
  · exact storeBinary_of_resolutionFault rfl rfl hpc hr

/-- Settles O26: the three instructions narrow their exact result, which is ALU_OVF where it does not fit; the boundary
examples are narrowed in the same way. -/
theorem overflowIsChecked : Obligations.OverflowIsChecked := by
  refine ⟨fun m1 m2 m3 s hpc hr hv => ?_, fun m1 m2 m3 s hpc hr hv => ?_, fun m1 s hpc hr hv => ?_, fun a b => ?_⟩
  · exact storeBinary_of_value_error rfl rfl hpc hr (narrow_not_fits hv)
  · exact storeBinary_of_value_error rfl rfl hpc hr (narrow_not_fits hv)
  · exact execArb_of_not_fits hpc hr hv
  · exact ⟨fun h => (addValue_eq h).trans (narrow_not_fits (by decide)),
      fun h => ⟨(addValue_eq h).trans (narrow_not_fits (by decide)), (mulValue_eq h).trans (narrow_not_fits (by decide))⟩,
      fun h => (mulValue_eq h).trans (narrow_not_fits (by decide)),
      fun h => (mulValue_eq h).trans (narrow_not_fits (by decide)),
      fun h => ⟨_, (addValue_eq h).trans (narrow_fits (by decide)), rfl⟩,
      fun h => ⟨_, (mulValue_eq h).trans (narrow_fits (by decide)), rfl⟩,
      fun h => ⟨_, (mulValue_eq h).trans (narrow_fits (by decide)), rfl⟩,
      fun h => (mulValue_eq h).trans (narrow_of_val h.1)⟩

end Sys2Proof.Safety

/-! ## Input and output (42_io.md): IN, OUT and the input FIFO

Stages 3 and 4 of an instruction with one parameter are one fault, as for ADD and MUL; the FIFO is looked at only after
them. Values queued behind the oldest one go through every stage of an instruction unread. -/

namespace Sys2Proof.Machine

open Sys2Proof.Safety

/-! ### IN and OUT after their resolution (R89, R90) -/

/-- Stages 3 and 4 of IN take the first fault of the resolution, whatever is then done with the target. -/
theorem check_inp_stages {s : State} (hpc : 0 ≤ s.pc.val) (m1 : Mode)
    (k : Nat → I64 → Host.Outcome State Fault Refusal) :
    (s.check (resolveWrite s 1 m1) fun a => s.check (nextPc s 1) fun npc => k a npc) =
      s.orFault (resolutionFault s (.inp m1)) (k (target s 1 m1) (Pseudocode.cell (s.pc.val + 1 + 1))) := by
  rw [check_resolveWrite hpc, check_nextPc, resolutionFault_eq_or]
  simp only [Instr.kinds, Instr.modes, paramsFault_cons, paramsFault_nil, State.orFault_or, State.orFault_none]
  rfl

/-- Stages 3 and 4 take the first fault of the resolution, then the operand is yielded (R90). -/
theorem execOut_eq {s : State} (hpc : 0 ≤ s.pc.val) (m1 : Mode) :
    execOut m1 s = s.orFault (resolutionFault s (.out m1))
      (.next ((s.setPc (Pseudocode.cell (s.pc.val + 1 + 1))).yieldResult (.output (operand s 1 m1)))) := by
  rw [execOut, check_resolveRead hpc, check_nextPc, resolutionFault_eq_or]
  simp only [Instr.kinds, Instr.modes, paramsFault_cons, paramsFault_nil, State.orFault_or, State.orFault_none]
  rfl

/-- A next `pc` given by its value is the cell that stage 4 computes for one parameter (R77). -/
theorem cell_nextPc_one {s : State} {npc : I64} (h : npc.val = s.pc.val + 2) :
    Pseudocode.cell (s.pc.val + 1 + 1) = npc := by
  rw [show s.pc.val + 1 + 1 = npc.val by omega, Pseudocode.cell_val]

theorem execInp_of_resolutionFault {s : State} {m1 : Mode} {c : FaultCode} (hpc : 0 ≤ s.pc.val)
    (hr : resolutionFault s (.inp m1) = some c) : execInp m1 s = .next (s.takeFault c) := by
  rw [execInp, check_inp_stages hpc, hr, State.orFault_some]

/-- A target that resolves and an empty FIFO: the engine yields `NeedInput` (R89). -/
theorem execInp_starved {s : State} {m1 : Mode} (hpc : 0 ≤ s.pc.val) (hr : resolutionFault s (.inp m1) = none)
    (hq : s.inq = []) : execInp m1 s = .next (s.yieldResult .needInput) := by
  rw [execInp, check_inp_stages hpc, hr, State.orFault_none]
  simp only [hq]

/-- A target that resolves and a value queued: the oldest value goes into the target's cell (R89, R91). -/
theorem execInp_popped {s : State} {m1 : Mode} {v npc : I64} {q : List I64} (hpc : 0 ≤ s.pc.val)
    (hr : resolutionFault s (.inp m1) = none) (hq : s.inq = v :: q) (hn : npc.val = s.pc.val + 2) :
    execInp m1 s = .next (((s.setInq q).storeCell (target s 1 m1) v).setPc npc) := by
  rw [execInp, check_inp_stages hpc, hr, State.orFault_none, cell_nextPc_one hn]
  simp only [hq]

theorem execOut_of_resolutionFault {s : State} {m1 : Mode} {c : FaultCode} (hpc : 0 ≤ s.pc.val)
    (hr : resolutionFault s (.out m1) = some c) : execOut m1 s = .next (s.takeFault c) := by
  rw [execOut_eq hpc, hr, State.orFault_some]

/-- A parameter that resolves: its operand is the result, and `pc` advances by 2 (R90). -/
theorem execOut_of_resolved {s : State} {m1 : Mode} {npc : I64} (hpc : 0 ≤ s.pc.val)
    (hr : resolutionFault s (.out m1) = none) (hn : npc.val = s.pc.val + 2) :
    execOut m1 s = .next ((s.setPc npc).yieldResult (.output (operand s 1 m1))) := by
  rw [execOut_eq hpc, hr, State.orFault_none, cell_nextPc_one hn]

/-! ### A HostRun that an IN ends, and the next one (R92) -/

/-- Only a `pc` that is not negative can be fetched from (R74). -/
theorem pc_nonneg_of_fetchDecode {s : State} {i : Instr} (h : s.fetchDecode = .ok i) : 0 ≤ s.pc.val := by
  by_contra hpc
  rw [State.fetchDecode, State.load, if_pos (Int.not_le.mp hpc)] at h
  cases h

/-- In phase RUNNING the instruction that is fetched is executed (R75, R78). -/
theorem step_of_fetchDecode {s : State} {i : Instr} (hrun : s.phase = .running) (h : s.fetchDecode = .ok i) :
    step s = exec i s := by
  rw [step_running hrun, engineStep, h, State.check_ok]

theorem step_starved {s : State} {m1 : Mode} (hrun : s.phase = .running) (hi : s.fetchDecode = .ok (.inp m1))
    (hr : resolutionFault s (.inp m1) = none) (hq : s.inq = []) :
    step s = .next (s.yieldResult .needInput) :=
  (step_of_fetchDecode hrun hi).trans (execInp_starved (pc_nonneg_of_fetchDecode hi) hr hq)

/-- In phase SUSPENDED a HostRun puts the CORE into phase RUNNING (R113). -/
theorem step_run_of_suspended {s : State} {ts : List Transaction} (h : s.phase = .suspended)
    (hp : s.pending = .run :: ts) : step s = .next { s with pending := ts, running := true } := by
  have hstart : hostRun { s with pending := ts } = { s with pending := ts, running := true } := by
    rw [hostRun, show ({ s with pending := ts } : State).phase = .suspended from h]
  rw [step_of_pending (by simp [h]) hp]
  exact congrArg Host.Outcome.next hstart

/-! ### Values queued behind the oldest (R154) -/

/-- Values appended to the tail of the FIFO (R22, R108). -/
def State.pushAll (s : State) (vs : List I64) : State := s.setInq (s.inq ++ vs)

/-- A change of the next state an outcome answers. -/
def mapNext (f : State → State) : Host.Outcome State Fault Refusal → Host.Outcome State Fault Refusal
  | .next s => .next (f s)
  | .fault r => .fault r
  | .refused r => .refused r

@[simp] theorem mapNext_next (f : State → State) (s : State) : mapNext f (.next s) = .next (f s) := rfl

/-- A change of the state commutes with a check if it commutes with the fault taken and with what follows the check. -/
theorem check_mapNext {α : Type} {f : State → State} {s : State} {r : Except FaultCode α}
    {k k' : α → Host.Outcome State Fault Refusal} (hf : ∀ c, (f s).takeFault c = f (s.takeFault c))
    (hk : ∀ a, k' a = mapNext f (k a)) : (f s).check r k' = mapNext f (s.check r k) := by
  cases r with
  | ok a => exact hk a
  | error c => exact congrArg Host.Outcome.next (hf c)

/-- A check passes values queued at the tail through, since a fault leaves the FIFO (R131). -/
theorem check_pushAll {α : Type} {s : State} {vs : List I64} {r : Except FaultCode α}
    {k k' : α → Host.Outcome State Fault Refusal} (hk : ∀ a, k' a = mapNext (State.pushAll · vs) (k a)) :
    (s.pushAll vs).check r k' = mapNext (State.pushAll · vs) (s.check r k) :=
  check_mapNext (f := (State.pushAll · vs)) (fun _ => rfl) hk

theorem storeBinary_pushAll (value : I64 → I64 → Except FaultCode I64) (m1 m2 m3 : Mode) (s : State) (vs : List I64) :
    storeBinary value m1 m2 m3 (s.pushAll vs) = mapNext (State.pushAll · vs) (storeBinary value m1 m2 m3 s) :=
  check_pushAll fun _ => check_pushAll fun _ => check_pushAll fun _ => check_pushAll fun _ => check_pushAll fun _ => rfl

theorem jumpIf_pushAll (taken : I64 → Bool) (m1 m2 : Mode) (s : State) (vs : List I64) :
    jumpIf taken m1 m2 (s.pushAll vs) = mapNext (State.pushAll · vs) (jumpIf taken m1 m2 s) :=
  check_pushAll fun _ => check_pushAll fun _ => check_pushAll fun _ => rfl

/-- IN takes the oldest value, so with a FIFO that is not empty it leaves what is queued behind (R91). -/
theorem execInp_pushAll (m1 : Mode) {s : State} (hq : s.inq ≠ []) (vs : List I64) :
    execInp m1 (s.pushAll vs) = mapNext (State.pushAll · vs) (execInp m1 s) := by
  obtain ⟨v, q, hq⟩ := List.exists_cons_of_ne_nil hq
  have hq' : (s.pushAll vs).inq = v :: (q ++ vs) := congrArg (· ++ vs) hq
  refine check_pushAll fun a => check_pushAll fun npc => ?_
  simp only [hq, hq']
  rfl

theorem exec_pushAll (i : Instr) {s : State} (hq : s.inq ≠ []) (vs : List I64) :
    exec i (s.pushAll vs) = mapNext (State.pushAll · vs) (exec i s) := by
  cases i with
  | add m1 m2 m3 | mul m1 m2 m3 | lt m1 m2 m3 | eq m1 m2 m3 => exact storeBinary_pushAll _ m1 m2 m3 s vs
  | jnz m1 m2 | jz m1 m2 => exact jumpIf_pushAll _ m1 m2 s vs
  | inp m1 => exact execInp_pushAll m1 hq vs
  | out m1 => exact check_pushAll fun _ => check_pushAll fun _ => rfl
  | arb m1 => exact check_pushAll fun _ => check_pushAll fun _ => check_pushAll fun _ => rfl
  | halt => exact check_pushAll fun _ => rfl

theorem engineStep_pushAll {s : State} (hq : s.inq ≠ []) (vs : List I64) :
    engineStep (s.pushAll vs) = mapNext (State.pushAll · vs) (engineStep s) :=
  check_pushAll fun i => exec_pushAll i hq vs

/-! ### What a step does to the FIFO (R91) -/

theorem engineStep_inq {s t : State} (h : engineStep s = .next t) :
    t.inq = s.inq ∨ ∃ m1 v, s.fetchDecode = .ok (.inp m1) ∧ s.inq = v :: t.inq := by
  obtain ⟨_, -, rfl⟩ | ⟨i, hi, he⟩ := engineStep_cases h
  · exact .inl rfl
  obtain ⟨_, rfl⟩ | ⟨_, _, _, -, rfl⟩ | ⟨m1, _, v, _, _, rfl, -, hq, rfl⟩ | ⟨_, -, -, rfl⟩ | ⟨_, _, _, -, -, rfl⟩ |
    ⟨_, rfl⟩ | ⟨_, _, rfl⟩ | ⟨_, -, rfl⟩ := exec_cases he
  · exact .inl rfl
  · exact .inl rfl
  · exact .inr ⟨m1, v, hi, hq⟩
  all_goals exact .inl rfl

theorem hostTurn_inq (s : State) :
    (∃ vs, (hostTurn s).inq = s.inq ++ vs) ∨ ∃ program ts, s.pending = .load program :: ts ∧ (hostTurn s).inq = [] := by
  have unchanged : (hostTurn s).inq = s.inq → ∃ vs, (hostTurn s).inq = s.inq ++ vs := fun h => ⟨[], by simp [h]⟩
  obtain ⟨-, h⟩ | ⟨program, ts, hp, -, h⟩ | ⟨_, _, us, -, hpush, -⟩ | ⟨_, -, -, h⟩ | ⟨_, -, -, h⟩ := hostTurn_cases s
  · exact .inl (unchanged (by rw [h]))
  · exact .inr ⟨program, ts, hp, by rw [h]⟩
  · exact .inl ⟨us, by obtain h | h := hpush <;> rw [h]⟩
  · exact .inl (unchanged (by rw [h]))
  · exact .inl (unchanged (by rw [h]))

end Sys2Proof.Machine

namespace Sys2Proof.Safety

open Sys2Proof.Machine

/-! ### The words of an instruction with one parameter (R51, R56) -/

theorem encode_eq_iff_of_one_mode {i : Instr} {m1 : Mode} (hm : i.modes = [m1]) (w : I64) :
    encode i = w ↔ w.val = i.opcode + 100 * m1.digit := by
  have hval : (encode i).val = i.opcode + 100 * modesValue [m1] := by rw [← hm]; rfl
  rw [I64.ext_iff, hval]
  simp only [modesValue]
  omega

/-- A digit above the last used mode field is RESERVED_DIGIT (R61). -/
theorem decode_of_reserved {w : I64} {kinds : List ParamKind} (hw : 0 ≤ w.val)
    (hs : Pseudocode.signature (w.val.toNat % 100) = some kinds) (h : w.val.toNat / 10 ^ (kinds.length + 2) ≠ 0) :
    decode w = .error .reservedDigit := by
  refine decode_eq_error ?_
  rw [← Int.toNat_of_nonneg hw, Pseudocode.decode_of_signature hs, if_pos h]

/-! ### The statements -/

/-- Settles O18: after the resolution the FIFO decides between the pop and `NeedInput`. -/
theorem inRule : Obligations.InRule := by
  refine ⟨fun m1 s hpc => ⟨fun v npc q => execInp_popped hpc, execInp_starved hpc,
    fun c => execInp_of_resolutionFault hpc⟩, fun m1 w => ?_, fun w => ⟨fun hw => ?_, fun hw hop hd => ?_⟩⟩
  · rw [decode_ok_iff, encode_eq_iff_of_one_mode rfl, Instr.wf, Mode.writable, decide_eq_true_iff]
    rfl
  · rw [← (encode_eq_iff_of_one_mode (i := .inp .immediate) rfl w).mpr hw]
    exact immediateTargetIsMalformed _ rfl
  · exact decode_of_reserved (kinds := [.write]) hw (by rw [hop]; rfl) hd

/-- Settles O19: after the resolution nothing but the operand is looked at; each of the three modes is a read mode. -/
theorem outRule : Obligations.OutRule := by
  refine ⟨fun m1 s hpc => ⟨fun npc => execOut_of_resolved hpc, fun c => execOut_of_resolutionFault hpc⟩,
    fun m1 w => ?_, fun w hw hop => ?_⟩
  · rw [decode_ok_iff, encode_eq_iff_of_one_mode rfl]
    exact and_iff_right rfl
  · have hs : Pseudocode.signature (w.val.toNat % 100) = some [.read] := by rw [hop]; rfl
    exact ⟨decode_of_reserved hw hs, fun hd hbad =>
      badModeIsMalformed w _ 1 hw hs hd (Nat.le_refl 1) (Nat.le_refl 1) hbad⟩

/-- Settles O43: a step of the engine looks at the FIFO in IN only, and there at the oldest value only. -/
theorem laterInputDoesNotChangeStep : Obligations.LaterInputDoesNotChangeStep := by
  intro s t vs hrun hq h
  rw [step_running hrun] at h
  show step (s.pushAll vs) = .next (t.pushAll vs)
  rw [step_running (s := s.pushAll vs) hrun, engineStep_pushAll hq, h, mapNext_next]

/-- Settles O45: of the instructions only IN writes the FIFO, and of the transactions HostLoad and the inputs. -/
theorem fifoOrder : Obligations.FifoOrder := by
  intro s t h
  obtain ⟨hp, he⟩ | ⟨hp, rfl⟩ := step_cases h
  · exact ⟨fun _ => engineStep_inq he, fun hn => absurd hp hn⟩
  · exact ⟨fun hr => absurd hr hp, fun _ => hostTurn_inq s⟩

/-- Settles O56: `NeedInput` leaves what fetch and resolution read, so the HostRun that follows meets the same IN. -/
theorem starvedInRetries : Obligations.StarvedInRetries := by
  intro m1 s ts hrun hi hr hq hp
  obtain ⟨hf, hh, hrunning⟩ := phase_running_iff.mp hrun
  have hsusp : (s.yieldResult .needInput).phase = .suspended := phase_suspended_iff.mpr ⟨hf, hh, rfl⟩
  have hrestart : step (s.yieldResult .needInput) =
      .next { s with pending := ts, results := s.results ++ [.needInput] } := by
    rw [step_run_of_suspended hsusp hp, hrunning]
    rfl
  have hagain := step_starved (s := { s with pending := ts, results := s.results ++ [.needInput] }) hrun hi hr hq
  rw [State.yieldResult, List.append_assoc] at hagain
  exact ⟨_, _, step_starved hrun hi hr hq, rfl, hrestart, rfl, hi, hagain⟩

end Sys2Proof.Safety

/-! ## Control transfer (43_control_transfer.md): JNZ, JZ and the fetch at the target of a jump

Both parameters and the next `pc` are resolved before the condition is looked at, as for ADD and MUL; the target goes into
`pc` as it is, and the stages of the next step are the first that can object to it. -/

namespace Sys2Proof.Machine

open Sys2Proof.Safety

section Jumping

variable {i : Instr} {m1 m2 : Mode} {s : State} {taken : I64 → Bool}

/-- Stages 3 and 4 take the first fault of the resolution, then the condition chooses what is written into `pc` (R81). -/
theorem jumpIf_eq (hk : i.kinds = [.read, .read]) (hm : i.modes = [m1, m2]) (hpc : 0 ≤ s.pc.val) :
    jumpIf taken m1 m2 s = s.orFault (resolutionFault s i)
      (.next (s.setPc (if taken (operand s 1 m1) then operand s 2 m2 else Pseudocode.cell (s.pc.val + 1 + 2)))) := by
  have hn : i.numParams = 2 := congrArg List.length hk
  rw [jumpIf, check_resolveRead hpc, check_resolveRead hpc, check_nextPc, resolutionFault_eq_or, hk, hm, hn]
  simp only [paramsFault_cons, paramsFault_nil, State.orFault_or, State.orFault_none]
  rfl

/-- A fault of the resolution comes before the jump, taken or not (R70, R77). -/
theorem jumpIf_of_resolutionFault (hk : i.kinds = [.read, .read]) (hm : i.modes = [m1, m2]) (hpc : 0 ≤ s.pc.val)
    {c : FaultCode} (hr : resolutionFault s i = some c) : jumpIf taken m1 m2 s = .next (s.takeFault c) := by
  rw [jumpIf_eq hk hm hpc, hr, State.orFault_some]

/-- Where everything resolves, `pc` becomes the second operand under the condition of the jump and else advances by 3
(R93, R94). -/
theorem jumpIf_of_resolved (hk : i.kinds = [.read, .read]) (hm : i.modes = [m1, m2]) (hpc : 0 ≤ s.pc.val)
    (hr : resolutionFault s i = none) {P : Prop} [Decidable P] (ht : taken (operand s 1 m1) = true ↔ P) {npc : I64}
    (hn : npc.val = s.pc.val + 3) :
    jumpIf taken m1 m2 s = .next (s.setPc (if P then operand s 2 m2 else npc)) := by
  have hnpc : s.pc.val + 1 + 2 = npc.val := by omega
  rw [jumpIf_eq hk hm hpc, hr, State.orFault_none, hnpc, Pseudocode.cell_val, if_congr ht rfl rfl]

/-- A taken jump writes its target unchecked (R95). -/
theorem jumpIf_taken (hk : i.kinds = [.read, .read]) (hm : i.modes = [m1, m2]) (hpc : 0 ≤ s.pc.val)
    (hr : resolutionFault s i = none) (ht : taken (operand s 1 m1) = true) :
    jumpIf taken m1 m2 s = .next (s.setPc (operand s 2 m2)) := by
  rw [jumpIf_eq hk hm hpc, hr, State.orFault_none, if_pos ht]

end Jumping

/-- JNZ and JZ under their conditions write the second operand into `pc` (R95). -/
theorem exec_of_taken {i : Instr} {m1 m2 : Mode} {s : State} (hpc : 0 ≤ s.pc.val) (hr : resolutionFault s i = none)
    (ht : i = .jnz m1 m2 ∧ (operand s 1 m1).val ≠ 0 ∨ i = .jz m1 m2 ∧ (operand s 1 m1).val = 0) :
    exec i s = .next (s.setPc (operand s 2 m2)) := by
  obtain ⟨rfl, ha⟩ | ⟨rfl, ha⟩ := ht <;> exact jumpIf_taken rfl rfl hpc hr (decide_eq_true ha)

end Sys2Proof.Machine

namespace Sys2Proof.Safety

open Sys2Proof.Machine

/-! ### The words of an instruction with two read parameters (R51, R56) -/

/-- Every mode is a read mode, so each pair of mode digits gives a word. -/
theorem decode_jump_iff {i : Instr} {m1 m2 : Mode} (hm : i.modes = [m1, m2]) (hwf : i.wf = true) (w : I64) :
    decode w = .ok i ↔ w.val = i.opcode + 100 * m1.digit + 1000 * m2.digit := by
  have hval : (encode i).val = i.opcode + 100 * modesValue [m1, m2] := by rw [← hm]; rfl
  rw [decode_ok_iff, and_iff_right hwf, I64.ext_iff, hval]
  simp only [modesValue]
  omega

/-- A digit above the two mode fields is RESERVED_DIGIT (R61); with none, a digit 3 to 9 in either field is BAD_MODE
(R60). -/
theorem decode_malformed_of_two_reads {w : I64} (hw : 0 ≤ w.val)
    (hs : Pseudocode.signature (w.val.toNat % 100) = some [.read, .read]) :
    (w.val.toNat / 10000 ≠ 0 → decode w = .error .reservedDigit) ∧
    (w.val.toNat / 10000 = 0 → 2 < digit 2 w.val.toNat ∨ 2 < digit 3 w.val.toNat → decode w = .error .badMode) := by
  refine ⟨decode_of_reserved hw hs, fun hd hbad => ?_⟩
  obtain hbad | hbad := hbad
  · exact badModeIsMalformed w _ 1 hw hs hd (by decide) (by decide) hbad
  · exact badModeIsMalformed w _ 2 hw hs hd (by decide) (by decide) hbad

/-! ### The statements -/

/-- Settles O20: after the resolution only the condition is looked at, which is that the first operand is not 0. -/
theorem jnzRule : Obligations.JnzRule := by
  refine ⟨fun m1 m2 s hpc => ⟨fun npc hr hn => ?_, fun c hr => ?_⟩, fun m1 m2 w => decode_jump_iff rfl rfl w,
    fun w hw hop => ?_⟩
  · exact jumpIf_of_resolved rfl rfl hpc hr decide_eq_true_iff hn
  · exact jumpIf_of_resolutionFault rfl rfl hpc hr
  · exact decode_malformed_of_two_reads hw (by rw [hop]; rfl)

/-- Settles O21: after the resolution only the condition is looked at, which is that the first operand is 0. -/
theorem jzRule : Obligations.JzRule := by
  refine ⟨fun m1 m2 s hpc => ⟨fun npc hr hn => ?_, fun c hr => ?_⟩, fun m1 m2 w => decode_jump_iff rfl rfl w,
    fun w hw hop => ?_⟩
  · exact jumpIf_of_resolved rfl rfl hpc hr decide_eq_true_iff hn
  · exact jumpIf_of_resolutionFault rfl rfl hpc hr
  · exact decode_malformed_of_two_reads hw (by rw [hop]; rfl)

/-- Settles O28: the jump leaves the phase RUNNING and memory as it was, so the next step fetches at the target; a cell that
memory does not list holds 0, an unassigned opcode. -/
theorem jumpTargetIsCheckedAtNextFetch : Obligations.JumpTargetIsCheckedAtNextFetch := by
  intro m1 m2 s i hrun hpc hr ht
  have hrun' : (s.setPc (operand s 2 m2)).phase = .running := hrun
  obtain ⟨-, hunlisted⟩ := unassignedOpcodeIsMalformed
  exact ⟨_, exec_of_taken hpc hr ht, rfl, step_of_pc_neg hrun', State.fetchDecode_of_nonneg, hunlisted _ hrun'⟩

end Sys2Proof.Safety

/-! ## Comparison (44_compare.md): LT and EQ

The stages are those of ADD and MUL, but a comparison always has a value, 1 or 0, so that only the resolution can fault. -/

namespace Sys2Proof.Machine

/-- Where ADD, MUL, LT or EQ takes no fault, its target's cell holds a value of the operation (R85, R86, R97, R98). -/
theorem storeBinary_value_at_target {value : I64 → I64 → Except FaultCode I64} {m1 m2 m3 : Mode} {s t : State} {a : Nat}
    (h : storeBinary value m1 m2 m3 s = .next t) (hf : t.fault = none) (ha : resolveWrite s 3 m3 = .ok a) :
    ∃ x y, value x y = .ok (t.mem.read a) := by
  obtain ⟨c, rfl⟩ | ⟨x, y, c, npc, v, -, -, hc, -, hv, rfl⟩ := storeBinary_cases h
  · exact absurd hf (Option.some_ne_none _)
  · obtain rfl : c = a := Except.ok.inj (hc.symm.trans ha)
    exact ⟨x, y, by simpa using hv⟩

theorem ltValue_one_or_zero {x y v : I64} (h : ltValue x y = .ok v) : v = I64.one ∨ v = I64.zero :=
  Except.ok.inj h ▸ ite_eq_or_eq _ _ _

theorem eqValue_one_or_zero {x y v : I64} (h : eqValue x y = .ok v) : v = I64.one ∨ v = I64.zero :=
  Except.ok.inj h ▸ ite_eq_or_eq _ _ _

end Sys2Proof.Machine

namespace Sys2Proof.Safety

open Sys2Proof.Machine

/-- Settles O22: the signed comparison always gives a value, which is stored once everything resolves. -/
theorem ltRule : Obligations.LtRule := by
  refine ⟨fun m1 m2 m3 s hpc => ⟨fun npc hr hn => ?_, fun c hr => ?_⟩,
    fun m1 m2 m3 w => decode_storing_iff rfl rfl w, fun m1 m2 => immediateTargetIsMalformed _ rfl⟩
  · exact storeBinary_of_value_ok rfl rfl hpc hr rfl hn
  · exact storeBinary_of_resolutionFault rfl rfl hpc hr

/-- Settles O23: the test for equality always gives a value, which is stored once everything resolves. -/
theorem eqRule : Obligations.EqRule := by
  refine ⟨fun m1 m2 m3 s hpc => ⟨fun npc hr hn => ?_, fun c hr => ?_⟩,
    fun m1 m2 m3 w => decode_storing_iff rfl rfl w, fun m1 m2 => immediateTargetIsMalformed _ rfl⟩
  · exact storeBinary_of_value_ok rfl rfl hpc hr rfl hn
  · exact storeBinary_of_resolutionFault rfl rfl hpc hr

/-- Settles O27: the target's cell holds the value of the comparison, which is 1 or 0. -/
theorem comparisonGivesOneOrZero : Obligations.ComparisonGivesOneOrZero := by
  intro m1 m2 m3 s t a _ h hf ha
  obtain h | h := h
  · obtain ⟨x, y, hv⟩ := storeBinary_value_at_target h hf ha
    exact ltValue_one_or_zero hv
  · obtain ⟨x, y, hv⟩ := storeBinary_value_at_target h hf ha
    exact eqValue_one_or_zero hv

end Sys2Proof.Safety

/-! ## The relative base (45_relative_base.md): ARB

Stages 3 and 4 are read off `execArb_eq`; the words are those of an instruction with one read parameter, as for OUT. -/

namespace Sys2Proof.Machine

open Sys2Proof.Safety

/-- A fault of the resolution comes before the sum, so `rb` is not written. -/
theorem execArb_of_resolutionFault {s : State} {m1 : Mode} {c : FaultCode} (hpc : 0 ≤ s.pc.val)
    (hr : resolutionFault s (.arb m1) = some c) : execArb m1 s = .next (s.takeFault c) := by
  rw [execArb_eq hpc, hr, State.orFault_some]

/-- A cell value that is the sum with the old `rb` is written whatever its sign (R102), and `pc` advances by 2 (R101). -/
theorem execArb_of_sum {s : State} {m1 : Mode} {v npc : I64} (hpc : 0 ≤ s.pc.val)
    (hr : resolutionFault s (.arb m1) = none) (hv : v.val = s.rb.val + (operand s 1 m1).val)
    (hn : npc.val = s.pc.val + 2) : execArb m1 s = .next ((s.setRb v).setPc npc) := by
  rw [execArb_eq hpc, hr, State.orFault_none, cell_nextPc_one hn, arbValue, narrow_of_val hv, State.check_ok]

end Sys2Proof.Machine

namespace Sys2Proof.Safety

open Sys2Proof.Machine

/-- A digit above the one mode field is RESERVED_DIGIT (R61); with none, a digit 3 to 9 in the field is BAD_MODE (R60). -/
theorem decode_malformed_of_one_read {w : I64} (hw : 0 ≤ w.val)
    (hs : Pseudocode.signature (w.val.toNat % 100) = some [.read]) :
    (w.val.toNat / 1000 ≠ 0 → decode w = .error .reservedDigit) ∧
    (w.val.toNat / 1000 = 0 → 2 < digit 2 w.val.toNat → decode w = .error .badMode) :=
  ⟨decode_of_reserved hw hs, fun hd => badModeIsMalformed w _ 1 hw hs hd (Nat.le_refl 1) (Nat.le_refl 1)⟩

/-- Settles O24: after the resolution the sum with the old `rb` is written where it fits, and is ALU_OVF where it does not;
each of the three modes is a read mode. -/
theorem arbRule : Obligations.ArbRule := by
  refine ⟨fun m1 s hpc => ⟨fun v npc => execArb_of_sum hpc, execArb_of_not_fits hpc,
    fun c => execArb_of_resolutionFault hpc⟩, fun m1 w => ?_, fun w hw hop => ?_⟩
  · rw [decode_ok_iff, encode_eq_iff_of_one_mode rfl]
    exact and_iff_right rfl
  · exact decode_malformed_of_one_read hw (by rw [hop]; rfl)

end Sys2Proof.Safety

/-! ## HALT (46_halt.md): the instruction that halts, and the phase HALTED

HALT has no parameters, so that stage 4 alone can fault; no instruction runs in phase HALTED, so that a step there is a turn
of the host. -/

namespace Sys2Proof.Machine

/-! ### HALT after its stage 4 (R103) -/

theorem execHalt_of_nextPc {s : State} {npc : I64} (hn : npc.val = s.pc.val + 1) :
    execHalt s = .next ((s.setHalted.setPc npc).yieldResult .halted) := by
  have hnext : nextPc s 0 = .ok npc := narrow_of_val (by simpa using hn)
  rw [execHalt, hnext, State.check_ok]

/-- At the last address the next `pc` does not fit (R77). -/
theorem execHalt_at_maxI {s : State} (hpc : s.pc.val = maxI) : execHalt s = .next (s.takeFault .pcOvf) := by
  have hnext : nextPc s 0 = .error .pcOvf := narrow_not_fits (by rw [hpc]; decide)
  rw [execHalt, hnext, State.check_error]

/-! ### The halted flag (R23, R104) -/

/-- Of the instructions only HALT writes the flag. -/
theorem exec_halted {i : Instr} {s t : State} (h : exec i s = .next t) : t.halted = s.halted ∨ i = .halt := by
  obtain ⟨_, rfl⟩ | ⟨_, _, _, -, rfl⟩ | ⟨_, _, _, _, _, -, -, -, rfl⟩ | ⟨_, -, -, rfl⟩ | ⟨_, _, _, -, -, rfl⟩ |
    ⟨_, rfl⟩ | ⟨_, _, rfl⟩ | ⟨_, hi, -⟩ := exec_cases h
  iterate 7 · exact .inl rfl
  · exact .inr hi

theorem engineStep_halted {s t : State} (h : engineStep s = .next t) :
    t.halted = s.halted ∨ s.fetchDecode = .ok .halt := by
  obtain ⟨_, -, rfl⟩ | ⟨i, hi, he⟩ := engineStep_cases h
  · exact .inl rfl
  obtain hh | rfl := exec_halted he
  · exact .inl hh
  · exact .inr hi

/-- Of the transactions only HostLoad writes the flag, and it clears it. -/
theorem hostTurn_halted (s : State) : (hostTurn s).halted = s.halted ∨ (hostTurn s).halted = false := by
  obtain ⟨-, h⟩ | ⟨_, _, -, -, h⟩ | ⟨_, _, _, -, h | h, -⟩ | ⟨_, -, -, h⟩ | ⟨_, -, -, h⟩ := hostTurn_cases s
  · exact .inl (by rw [h])
  · exact .inr (by rw [h])
  all_goals exact .inl (by rw [h])

/-- In phase HALTED a HostRun is answered `Halted` and does nothing else (R114). -/
theorem hostTurn_run_of_halted {s : State} {ts : List Transaction} (h : s.phase = .halted) (hp : s.pending = .run :: ts) :
    hostTurn s = { s with pending := ts, results := s.results ++ [.halted] } := by
  rw [hostTurn_of_pending hp, perform, hostRun, show ({ s with pending := ts } : State).phase = .halted from h]
  rfl

/-- In phase HALTED a turn of the host is an accepted HostLoad, or at most appends values to the FIFO (R104). -/
theorem hostTurn_of_halted {s : State} (hph : s.phase = .halted) :
    (∃ program ts, s.pending = .load program :: ts ∧ program.length ≤ s.cfg.memCapacity) ∨
    ∃ ts us rs, hostTurn s = { s with pending := ts, inq := s.inq ++ us, results := rs } := by
  obtain ⟨-, h⟩ | ⟨program, ts, hp, hl, -⟩ | ⟨_, ts, us, -, h | h, -⟩ | ⟨_, -, hs | hr, -⟩ | ⟨ts, -, -, h⟩ :=
    hostTurn_cases s
  · exact .inr ⟨s.pending, [], s.results, by rw [h, List.append_nil]⟩
  · exact .inl ⟨program, ts, hp, hl⟩
  · exact .inr ⟨ts, us, s.results, h⟩
  · exact .inr ⟨ts, us, _, h⟩
  · exact absurd (hph.symm.trans hs) (by decide)
  · exact absurd (hph.symm.trans hr) (by decide)
  · exact .inr ⟨ts, [], _, by rw [h, List.append_nil]⟩

end Sys2Proof.Machine

namespace Sys2Proof.Safety

open Sys2Proof.Machine

/-- Settles O25: stage 4 decides between the halt and PC_OVF; with no mode field in use, every digit above the opcode is
reserved. -/
theorem haltRule : Obligations.HaltRule := by
  refine ⟨fun s npc => execHalt_of_nextPc, fun s => execHalt_at_maxI, fun w => ⟨?_, fun hw => ?_, fun hw hop hne => ?_⟩⟩
  · have hval : (encode .halt).val = 99 := by decide
    rw [decode_ok_iff, I64.ext_iff, hval, and_iff_right (by decide), eq_comm]
  · obtain ⟨hneg, -⟩ := negativeWordIsMalformed
    exact hneg w (by omega)
  · refine decode_of_reserved (kinds := []) hw (by rw [hop]; rfl) ?_
    simp only [List.length_nil]
    omega

/-- Settles O54: a step in phase HALTED is a turn of the host, which a HostRun answers without effect; the flag is written by
HALT and, where it is cleared, by HostLoad. -/
theorem haltIsPermanent : Obligations.HaltIsPermanent := by
  refine ⟨fun s t hph h => ?_, fun s t h hs ht => ?_⟩
  · rw [step_not_running (by simp [hph])] at h
    obtain rfl : hostTurn s = t := by injection h
    obtain hload | ⟨ts, us, rs, h⟩ := hostTurn_of_halted hph
    · exact .inl hload
    · have hrun : ∀ ts, s.pending = .run :: ts →
          (hostTurn s).inq = s.inq ∧ (hostTurn s).results = s.results ++ [.halted] := fun ts hp => by
        rw [hostTurn_run_of_halted hph hp]
        exact ⟨rfl, rfl⟩
      refine .inr ⟨?_, ?_, ?_, ?_, ?_, ⟨us, ?_⟩, hrun⟩ <;> rw [h]
      exact hph
  · obtain ⟨-, he⟩ | ⟨-, rfl⟩ := step_cases h
    · exact (engineStep_halted he).resolve_left (by simp [hs, ht])
    · have hkeep := hostTurn_halted s
      simp [hs, ht] at hkeep

end Sys2Proof.Safety

/-! ## Run control and the I/O channel (47_run_control_and_io_channel.md): the host's transactions, and what the host sees
of the engine

Outside RUNNING a step performs the transaction that is pending, so each statement about one is an equation for what it
performs. That the engine does not see the host's side is a change of the state that commutes with every check. -/

namespace Sys2Proof.Machine

open Sys2Proof.Safety

/-! ### HostLoad and HostInput refused (R107, R109, R112) -/

theorem hostLoad_of_lt {s : State} {program : List I64} (h : s.cfg.memCapacity < program.length) :
    hostLoad program s = s.reply .refused := if_neg (Nat.not_le.mpr h)

theorem hostInput_of_accepts {s : State} (h : s.acceptsInput = true) (v : I64) : hostInput v s = s.push v := if_pos h

theorem hostInput_of_not_accepts {s : State} (h : ¬ s.acceptsInput = true) (v : I64) :
    hostInput v s = s.reply .refused := if_neg h

theorem not_acceptsInput_of_fault {s : State} (h : s.fault ≠ none) : ¬ s.acceptsInput = true := fun ha =>
  h (acceptsInput_iff.mp ha).1

/-- A FIFO at its capacity takes no value (R112). -/
theorem not_acceptsInput_of_full {s : State} {n : Nat} (hn : s.cfg.fifoCapacity = some n) (h : n ≤ s.inq.length) :
    ¬ s.acceptsInput = true := fun ha =>
  absurd ((acceptsInput_iff.mp ha).2 n hn) (Nat.not_lt.mpr h)

/-! ### HostInputMany (R110, R112) -/

/-- The values there is room for go into the FIFO, and the later ones are pushed behind them. -/
theorem hostInputMany_append_of_room {s : State} (hf : s.fault = none) (us vs : List I64)
    (hroom : ∀ n, s.cfg.fifoCapacity = some n → s.inq.length + us.length ≤ n) :
    hostInputMany (us ++ vs) s = hostInputMany vs (s.pushAll us) := by
  induction us generalizing s with
  | nil => simp [State.pushAll, State.setInq]
  | cons u us ih =>
    have hacc : s.acceptsInput = true := acceptsInput_iff.mpr ⟨hf, fun n hn => by
      have := hroom n hn
      rw [List.length_cons] at this
      omega⟩
    have hroom' : ∀ n, (s.push u).cfg.fifoCapacity = some n → (s.push u).inq.length + us.length ≤ n := fun n hn => by
      have := hroom n hn
      simpa [State.push, Nat.add_assoc, Nat.add_comm 1] using this
    have hall : (s.push u).pushAll us = s.pushAll (u :: us) := by
      simp [State.push, State.pushAll, State.setInq]
    rw [List.cons_append, hostInputMany, if_pos hacc, ih (s := s.push u) hf hroom', hall]

/-- Values there is room for are all queued. -/
theorem hostInputMany_of_room {s : State} (hf : s.fault = none) (vs : List I64)
    (hroom : ∀ n, s.cfg.fifoCapacity = some n → s.inq.length + vs.length ≤ n) :
    hostInputMany vs s = s.pushAll vs := by
  have h := hostInputMany_append_of_room hf vs [] hroom
  rwa [List.append_nil] at h

/-- Where no input is accepted the first value is refused, and a list without one does nothing. -/
theorem hostInputMany_of_not_accepts {s : State} (h : ¬ s.acceptsInput = true) (vs : List I64) :
    hostInputMany vs s = { s with results := if vs = [] then s.results else s.results ++ [.refused] } := by
  cases vs with
  | nil => rfl
  | cons v vs => exact if_neg h

/-- A finite FIFO takes as many values as it has room for, and the next one is refused (R112). -/
theorem hostInputMany_of_capacity {s : State} {n : Nat} (hf : s.fault = none) (hn : s.cfg.fifoCapacity = some n)
    (hle : s.inq.length ≤ n) (vs : List I64) :
    hostInputMany vs s = { s with
      inq := s.inq ++ vs.take (n - s.inq.length)
      results := if s.inq.length + vs.length ≤ n then s.results else s.results ++ [.refused] } := by
  have hcap : ∀ m, s.cfg.fifoCapacity = some m → m = n := fun m hm => Option.some.inj (hm.symm.trans hn)
  by_cases hfit : s.inq.length + vs.length ≤ n
  · have hall : vs.take (n - s.inq.length) = vs := List.take_of_length_le (by omega)
    rw [hostInputMany_of_room hf vs fun m hm => hcap m hm ▸ hfit, hall, if_pos hfit]
    rfl
  · have hfull : (s.pushAll (vs.take (n - s.inq.length))).inq.length = n := by
      rw [State.pushAll, State.setInq_inq, List.length_append, List.length_take]
      omega
    have hrest : vs.drop (n - s.inq.length) ≠ [] := fun h => by
      rw [List.drop_eq_nil_iff] at h
      omega
    have hpush : hostInputMany vs s =
        hostInputMany (vs.drop (n - s.inq.length)) (s.pushAll (vs.take (n - s.inq.length))) := by
      rw [← hostInputMany_append_of_room hf _ _ fun m hm => ?_, List.take_append_drop]
      rw [hcap m hm, List.length_take]
      omega
    have hacc : ¬ (s.pushAll (vs.take (n - s.inq.length))).acceptsInput = true := not_acceptsInput_of_full hn hfull.ge
    rw [hpush, hostInputMany_of_not_accepts hacc, if_neg hrest, if_neg hfit]
    rfl

/-! ### HostInputAscii (R111) -/

/-- The code points of a text as values: those values of I64 whose integers they are. -/
theorem map_codePoint_iff {text : List Char} {vs : List I64} :
    vs = text.map codePoint ↔ vs.map I64.val = text.map (fun c => (c.toNat : Int)) := by
  have hval : (text.map codePoint).map I64.val = text.map (fun c => (c.toNat : Int)) := List.map_map
  have hinj : Function.Injective I64.val := fun _ _ => I64.ext
  rw [← hval, hinj.list_map.eq_iff]

/-! ### HostRun (R113 to R115), and no transaction (R120, R144) -/

/-- In phase FAULTED a HostRun is refused (R115). -/
theorem hostRun_of_faulted {s : State} (h : s.phase = .faulted) : hostRun s = s.reply .refused := by
  rw [hostRun, h]

theorem hostTurn_of_no_transaction {s : State} (h : s.pending = []) : hostTurn s = s := by
  rw [hostTurn, h]

/-! ### The engine does not see the host's side (R120, R122) -/

/-- The same CORE with other coming transactions, and with other results in the place of the first `n`. -/
def State.withHostSide (s : State) (n : Nat) (p : List Transaction) (r : List Answer) : State :=
  { s with pending := p, results := r ++ s.results.drop n }

section HostSide

variable {s : State} {n : Nat} (hn : n ≤ s.results.length) (p : List Transaction) (r : List Answer)

include hn

/-- A result appended by the engine comes behind those that are replaced. -/
theorem withHostSide_yieldResult (a : Answer) :
    (s.withHostSide n p r).yieldResult a = (s.yieldResult a).withHostSide n p r := by
  simp [State.withHostSide, State.yieldResult, List.drop_append_of_le_length hn]

theorem withHostSide_takeFault (c : FaultCode) :
    (s.withHostSide n p r).takeFault c = (s.takeFault c).withHostSide n p r := by
  simp [State.withHostSide, State.takeFault, List.drop_append_of_le_length hn]

variable {p r}

/-- A check passes the host's side through, since a fault only appends its indication (R131). -/
theorem check_withHostSide {α : Type} {x : Except FaultCode α} {k k' : α → Host.Outcome State Fault Refusal}
    (hk : ∀ a, k' a = mapNext (State.withHostSide · n p r) (k a)) :
    (s.withHostSide n p r).check x k' = mapNext (State.withHostSide · n p r) (s.check x k) :=
  check_mapNext (f := (State.withHostSide · n p r)) (withHostSide_takeFault hn p r) hk

/-- An instruction reads nothing of the host's side, and at most appends a result. -/
theorem exec_withHostSide (i : Instr) :
    exec i (s.withHostSide n p r) = mapNext (State.withHostSide · n p r) (exec i s) := by
  cases i with
  | add m1 m2 m3 | mul m1 m2 m3 | lt m1 m2 m3 | eq m1 m2 m3 =>
    exact check_withHostSide hn fun _ => check_withHostSide hn fun _ => check_withHostSide hn fun _ =>
      check_withHostSide hn fun _ => check_withHostSide hn fun _ => rfl
  | jnz m1 m2 | jz m1 m2 =>
    exact check_withHostSide hn fun _ => check_withHostSide hn fun _ => check_withHostSide hn fun _ => rfl
  | inp m1 =>
    refine check_withHostSide hn fun a => check_withHostSide hn fun npc => ?_
    have hq' : (s.withHostSide n p r).inq = s.inq := rfl
    cases hq : s.inq with
    | nil => simp only [hq', hq, mapNext_next, withHostSide_yieldResult hn]
    | cons v q => simp only [hq', hq, mapNext_next]; rfl
  | out m1 =>
    refine check_withHostSide hn fun a => check_withHostSide hn fun npc => ?_
    exact congrArg Host.Outcome.next (withHostSide_yieldResult (s := s.setPc npc) hn p r (.output a))
  | arb m1 =>
    exact check_withHostSide hn fun _ => check_withHostSide hn fun _ => check_withHostSide hn fun _ => rfl
  | halt =>
    refine check_withHostSide hn fun npc => ?_
    exact congrArg Host.Outcome.next (withHostSide_yieldResult (s := s.setHalted.setPc npc) hn p r .halted)

theorem engineStep_withHostSide :
    engineStep (s.withHostSide n p r) = mapNext (State.withHostSide · n p r) (engineStep s) :=
  check_withHostSide hn fun i => exec_withHostSide hn i

end HostSide

/-- The engine consumes no transaction. -/
theorem exec_pending {i : Instr} {s t : State} (h : exec i s = .next t) : t.pending = s.pending := by
  obtain ⟨_, rfl⟩ | ⟨_, _, _, -, rfl⟩ | ⟨_, _, _, _, _, -, -, -, rfl⟩ | ⟨_, -, -, rfl⟩ | ⟨_, _, _, -, -, rfl⟩ |
    ⟨_, rfl⟩ | ⟨_, _, rfl⟩ | ⟨_, -, rfl⟩ := exec_cases h <;> rfl

theorem engineStep_pending {s t : State} (h : engineStep s = .next t) : t.pending = s.pending := by
  obtain ⟨_, -, rfl⟩ | ⟨_, -, he⟩ := engineStep_cases h
  · rfl
  · exact exec_pending he

/-! ### Taking a fault (R131), and the end of a HostRun (R113) -/

/-- An instruction leaves the fault record, or it does nothing but take a fault (R73, R82). -/
theorem exec_fault {i : Instr} {s t : State} (h : exec i s = .next t) :
    t.fault = s.fault ∨ ∃ c, t = s.takeFault c := by
  obtain hf | ⟨_, _, _, -, rfl⟩ | ⟨_, _, _, _, _, -, -, -, rfl⟩ | ⟨_, -, -, rfl⟩ | ⟨_, _, _, -, -, rfl⟩ |
    ⟨_, rfl⟩ | ⟨_, _, rfl⟩ | ⟨_, -, rfl⟩ := exec_cases h
  · exact .inr hf
  all_goals exact .inl rfl

/-- A step of the engine after which a fault is recorded has taken it, and has done nothing else. -/
theorem step_takes_fault {s t : State} (hrun : s.phase = .running) (h : step s = .next t) (hf : t.fault ≠ none) :
    ∃ c, t = s.takeFault c := by
  rw [step_running hrun] at h
  obtain ⟨c, -, ht⟩ | ⟨_, -, he⟩ := engineStep_cases h
  · exact ⟨c, ht⟩
  · obtain ⟨hnone, -, -⟩ := phase_running_iff.mp hrun
    exact (exec_fault he).resolve_left fun hkeep => hf (hkeep.trans hnone)

/-- The state in which a HostRun ends with the given answer (R115 to R118); a HostRun in progress is never refused. -/
def State.EndedWith (t : State) : Answer → Prop
  | .output _ | .needInput => t.phase = .suspended
  | .halted => t.phase = .halted
  | .fault f => t.phase = .faulted ∧ t.fault = some f
  | .refused => False

/-- A step of the engine goes on without an answer, or it ends the HostRun with one. -/
theorem step_goes_on_or_ends {s t : State} (hrun : s.phase = .running) (h : step s = .next t) :
    (t.phase = .running ∧ t.results = s.results) ∨
    (t.running = false ∧ ∃ r, t.results = s.results ++ [r] ∧ t.EndedWith r) := by
  obtain ⟨hp, hres, -⟩ | ⟨_, a, -, hp, hres, -⟩ | ⟨_, -, -, hp, rfl⟩ | ⟨hi, hp, hres⟩ | hp :=
    engineYieldsAtThreePoints s t hrun h
  · exact .inl ⟨hp, hres⟩
  · obtain ⟨-, -, hr⟩ := phase_suspended_iff.mp hp
    exact .inr ⟨hr, .output a, hres, hp⟩
  · exact .inr ⟨rfl, .needInput, rfl, hp⟩
  · rw [step_of_fetchDecode hrun hi] at h
    exact .inr ⟨running_of_execHalt h, .halted, hres, hp⟩
  · obtain ⟨c, rfl⟩ := step_takes_fault hrun h (phase_faulted_iff.mp hp)
    exact .inr ⟨rfl, .fault ⟨c, s.pc⟩, rfl, hp, rfl⟩

end Sys2Proof.Machine

namespace Sys2Proof.Safety

open Sys2Proof.Machine

/-- Settles O42: replacing the host's side commutes with the step, and of the results before the step all are replaced. -/
theorem engineIgnoresHostSide : Obligations.EngineIgnoresHostSide := by
  intro s t p r hrun h
  rw [step_running hrun] at h
  have hs : ({ s with pending := p, results := r } : State) = s.withHostSide s.results.length p r := by
    simp [State.withHostSide]
  refine ⟨engineStep_pending h, ?_⟩
  rw [hs, step_running (s := s.withHostSide s.results.length p r) hrun, engineStep_withHostSide le_rfl, h]
  rfl

/-- Settles O48: with no fault and room in the FIFO the pending HostInput is accepted. -/
theorem hostInputAppends : Obligations.HostInputAppends := by
  intro s v ts hph hp hf hroom
  rw [step_of_pending hph hp]
  exact congrArg Host.Outcome.next
    (hostInput_of_accepts (s := { s with pending := ts }) (acceptsInput_iff.mpr ⟨hf, hroom⟩) v)

/-- Settles O50: an unbounded FIFO has room for all values, a finite one for as many as are missing to its capacity, and
with a fault recorded the first value is refused. -/
theorem hostInputManyKeepsOrder : Obligations.HostInputManyKeepsOrder := by
  refine fun vs s => ⟨fun ts => step_of_pending, fun hf hn => ?_, fun n hf hn hle => ?_, fun hf => ?_⟩
  · exact hostInputMany_of_room hf vs fun n hs => by simp [hn] at hs
  · exact hostInputMany_of_capacity hf hn hle vs
  · exact hostInputMany_of_not_accepts (not_acceptsInput_of_fault hf) vs

/-- Settles O51: the values with the integers of the code points are the code points as values, and an unbounded FIFO has
room for all of them. -/
theorem hostInputAsciiQueuesCodePoints : Obligations.HostInputAsciiQueuesCodePoints := by
  refine ⟨fun text vs s hvs => ?_, fun text s hf hn => ?_⟩
  · obtain rfl := map_codePoint_iff.mpr hvs
    refine ⟨rfl, fun ts hph hp => ?_⟩
    have hmany : step { s with pending := .inputMany (text.map codePoint) :: ts } =
        .next (hostInputMany (text.map codePoint) { s with pending := ts }) :=
      step_of_pending (s := { s with pending := .inputMany (text.map codePoint) :: ts }) hph rfl
    have hascii : step s = .next (hostInputMany (text.map codePoint) { s with pending := ts }) := step_of_pending hph hp
    exact ⟨hascii.trans hmany.symm, hascii⟩
  · have hall : hostInputAscii text s = s.pushAll (text.map codePoint) :=
      hostInputMany_of_room hf _ fun n hs => by simp [hn] at hs
    rw [hall]
    refine ⟨?_, rfl⟩
    rw [State.pushAll, State.setInq_inq, List.map_append, map_codePoint_iff.mp rfl]

/-- Settles O57: by induction on the number of steps; the HostRun goes on without an answer until the step that ends it. -/
theorem hostRunEndsWithOneResult : Obligations.HostRunEndsWithOneResult := by
  intro n
  induction n with
  | zero =>
    intro s t hrun h
    obtain ⟨-, -, hr⟩ := phase_running_iff.mp hrun
    simp [runToEnd, hr] at h
  | succ n ih =>
    intro s t hrun h
    obtain ⟨u, hu⟩ := stepAlwaysAnswers s
    obtain ⟨-, -, hr⟩ := phase_running_iff.mp hrun
    have hpend : u.pending = s.pending := engineStep_pending (step_running hrun ▸ hu)
    rw [runToEnd, if_pos hr, hu] at h
    obtain ⟨hgoes, hres⟩ | ⟨hended, r, hres, hend⟩ := step_goes_on_or_ends hrun hu
    · rw [← hpend, ← hres]
      exact ih u t hgoes h
    · obtain rfl : u = t := Option.some.inj ((runToEnd_of_ended hended n).symm.trans h)
      exact ⟨hended, hpend, r, hres, hend⟩

/-- Settles O47: the pending HostLoad is refused. -/
theorem tooLongHostLoadIsRefused : Obligations.TooLongHostLoadIsRefused := by
  intro s program ts hph hp hl
  rw [step_of_pending hph hp]
  exact congrArg Host.Outcome.next (hostLoad_of_lt (s := { s with pending := ts }) hl)

/-- Settles O49: with a fault recorded, or with the FIFO full, the pending HostInput is not accepted. -/
theorem hostInputIsRefused : Obligations.HostInputIsRefused := by
  intro s v ts hph hp
  have hrefused : ¬ s.acceptsInput = true →
      step s = .next { s with pending := ts, results := s.results ++ [.refused] } := fun ha => by
    rw [step_of_pending hph hp]
    exact congrArg Host.Outcome.next (hostInput_of_not_accepts (s := { s with pending := ts }) ha v)
  exact ⟨fun hf => hrefused (not_acceptsInput_of_fault hf), fun n hn hle => hrefused (not_acceptsInput_of_full hn hle)⟩

/-- Settles O52: one clause for each phase in which the host has a turn. -/
theorem hostRunByPhase : Obligations.HostRunByPhase := by
  refine fun s ts hp => ⟨fun h => step_run_of_suspended h hp, fun h => ?_, fun h => ?_⟩
  · rw [step_not_running (by simp [h]), hostTurn_run_of_halted h hp]
  · rw [step_of_pending (by simp [h]) hp]
    exact congrArg Host.Outcome.next (hostRun_of_faulted (s := { s with pending := ts }) h)

/-- Settles O53: the turn of the host is empty. -/
theorem nothingChangesBetweenTransactions : Obligations.NothingChangesBetweenTransactions := by
  intro s hph hp
  rw [step_not_running hph, hostTurn_of_no_transaction hp]

end Sys2Proof.Safety

/-! ## Exceptions (60_exceptions.md): the first fault of an instruction, its record, and the phase FAULTED

The order of faults is that of the checks: each stage is looked at only where every earlier one has passed. A fault that is
recorded makes every transaction but HostLoad a refusal. -/

namespace Sys2Proof.Machine

open Sys2Proof.Safety

/-! ### The order of faults (R134) -/

/-- HALT has no parameters, so its stages 3 and 4 are the next `pc` alone. -/
theorem execHalt_of_resolutionFault {s : State} {c : FaultCode} (hr : resolutionFault s .halt = some c) :
    execHalt s = .next (s.takeFault c) := by
  rw [resolutionFault_eq_or] at hr
  have hn : nextPcFault s 0 = some c := hr
  rw [execHalt, check_nextPc, hn, State.orFault_some]

/-- A fault of stages 3 and 4 comes before the operation of every instruction. -/
theorem exec_of_resolutionFault {i : Instr} {s : State} {c : FaultCode} (hpc : 0 ≤ s.pc.val)
    (hr : resolutionFault s i = some c) : exec i s = .next (s.takeFault c) := by
  cases i with
  | add m1 m2 m3 | mul m1 m2 m3 | lt m1 m2 m3 | eq m1 m2 m3 => exact storeBinary_of_resolutionFault rfl rfl hpc hr
  | jnz m1 m2 | jz m1 m2 => exact jumpIf_of_resolutionFault rfl rfl hpc hr
  | inp m1 => exact execInp_of_resolutionFault hpc hr
  | out m1 => exact execOut_of_resolutionFault hpc hr
  | arb m1 => exact execArb_of_resolutionFault hpc hr
  | halt => exact execHalt_of_resolutionFault hr

/-! ### Phase FAULTED (R133) -/

/-- With a fault recorded a transaction is an accepted HostLoad, or it is at most answered. -/
theorem perform_of_fault {s : State} (hf : s.fault ≠ none) (x : Transaction) :
    (∃ program, x = .load program ∧ program.length ≤ s.cfg.memCapacity) ∨
    ∃ rs, perform x s = { s with results := rs } := by
  have hacc := not_acceptsInput_of_fault hf
  cases x with
  | load program =>
    obtain hl | hl := Nat.lt_or_ge s.cfg.memCapacity program.length
    · exact .inr ⟨_, hostLoad_of_lt hl⟩
    · exact .inl ⟨program, rfl, hl⟩
  | input v => exact .inr ⟨_, hostInput_of_not_accepts hacc v⟩
  | inputMany vs => exact .inr ⟨_, hostInputMany_of_not_accepts hacc vs⟩
  | inputAscii text => exact .inr ⟨_, hostInputMany_of_not_accepts hacc _⟩
  | run => exact .inr ⟨_, hostRun_of_faulted (phase_faulted_iff.mpr hf)⟩

/-- In phase FAULTED a turn of the host is an accepted HostLoad, or it leaves CORE as it was. -/
theorem hostTurn_of_faulted {s : State} (hph : s.phase = .faulted) :
    (∃ program ts, s.pending = .load program :: ts ∧ program.length ≤ s.cfg.memCapacity) ∨
    ∃ ts rs, hostTurn s = { s with pending := ts, results := rs } := by
  cases hp : s.pending with
  | nil => exact .inr ⟨s.pending, s.results, hostTurn_of_no_transaction hp⟩
  | cons x ts =>
    rw [hostTurn_of_pending hp]
    obtain ⟨program, rfl, hl⟩ | ⟨rs, hrs⟩ :=
      perform_of_fault (s := { s with pending := ts }) (phase_faulted_iff.mp hph) x
    · exact .inl ⟨program, ts, rfl, hl⟩
    · exact .inr ⟨ts, rs, hrs⟩

end Sys2Proof.Machine

namespace Sys2Proof.Safety

open Sys2Proof.Machine

/-- Settles O14: the fetch, the decoder, the stages of resolution and the operation, each after the ones before it. -/
theorem faultPriority : Obligations.FaultPriority := by
  refine fun s hrun => ⟨step_of_pc_neg hrun, fun hpc => ⟨fun c hd => ?_, fun i c hd hr => ?_, fun m1 m2 m3 hd hr hv => ?_,
    fun m1 m2 m3 hd hr hv => ?_, fun m1 hd hr hv => ?_⟩⟩
  · exact step_of_decode_error hrun hpc (decode_eq_error hd)
  · exact (step_of_decode_ok hrun hpc hd).trans (exec_of_resolutionFault hpc hr)
  · exact (step_of_decode_ok hrun hpc hd).trans (storeBinary_of_value_error rfl rfl hpc hr (narrow_not_fits hv))
  · exact (step_of_decode_ok hrun hpc hd).trans (storeBinary_of_value_error rfl rfl hpc hr (narrow_not_fits hv))
  · exact (step_of_decode_ok hrun hpc hd).trans (execArb_of_not_fits hpc hr hv)

/-- Settles O40: the engine records a fault only by taking it. -/
theorem faultEntryIsPrecise : Obligations.FaultEntryIsPrecise := by
  intro s t hrun h hf
  exact ⟨phase_faulted_iff.mpr hf, step_takes_fault hrun h hf⟩

/-- Settles O55: a step in phase FAULTED is a turn of the host, which only an accepted HostLoad makes more than an answer. -/
theorem faultIsSticky : Obligations.FaultIsSticky := by
  intro s t hph h
  rw [step_not_running (by simp [hph])] at h
  obtain rfl : hostTurn s = t := by injection h
  obtain hload | ⟨ts, rs, h⟩ := hostTurn_of_faulted hph
  · exact .inl hload
  · rw [h]
    exact .inr ⟨hph, rfl, rfl, rfl, rfl, rfl, rfl, rfl⟩

/-- Settles O15: row by row of the table. -/
theorem faultCodesFollowTable : Obligations.FaultCodesFollowTable := by
  intro c fpc
  cases c <;> rfl

end Sys2Proof.Safety
